-- ==== Sys2Proof/Word.lean ====
section
/-! DEFINITION. The widths of the machine (00_scope.md R6, R8) and the two truncations every rule writes. -/

namespace Sys2Proof

/-- A byte, an integer in 0..255 (R8): registers, timers, memory bytes, the immediate `NN`. -/
abbrev Byte := BitVec 8

/-- A word, an integer in 0..65535 (R8): `pc`, `I`, stack entries, an instruction word. -/
abbrev Word := BitVec 16

/-- A four-bit field of an instruction word (R91). -/
abbrev Nibble := BitVec 4

/-- The 12-bit address immediate `NNN` (R91). -/
abbrev Addr12 := BitVec 12

/-- A register index `X` or `Y`, 0 to 15; each of the 16 values is a valid register (R92). -/
abbrev Reg := Fin 16

/-- `V[F]`, the flags register (10_state.md R23). -/
abbrev VF : Reg := 15

/-- `trunc8(v) = v mod 256` (R8). -/
def trunc8 (n : Nat) : Byte := BitVec.ofNat 8 n

/-- `trunc16(v) = v mod 65536` (R8). -/
def trunc16 (n : Nat) : Word := BitVec.ofNat 16 n

end Sys2Proof
end

