-- ==== Sys2Proof/Syntax.lean ====
section
/-! DEFINITION. The 34 instructions of spec/opcode_table.json, one constructor a row, in the table's order. An
instruction carries the operands its handler reads and no bit that no handler examines (30_encoding.md R99). -/

namespace Sys2Proof

/-- An instruction (30_encoding.md R94 to R98). -/
inductive Instr where
  /-- `00E0` CLS (40_display.md R120). -/
  | cls
  /-- `00EE` RET (41_flow.md R140). -/
  | ret
  /-- `1NNN` JP NNN (R141). -/
  | jp (nnn : Addr12)
  /-- `2NNN` CALL NNN (R142). -/
  | call (nnn : Addr12)
  /-- `3XNN` SE VX, NN (R143). -/
  | seNN (x : Reg) (nn : Byte)
  /-- `4XNN` SNE VX, NN (R144). -/
  | sneNN (x : Reg) (nn : Byte)
  /-- `5XY0` SE VX, VY (R145). -/
  | seVY (x y : Reg)
  /-- `6XNN` LD VX, NN (42_alu.md R170). -/
  | ldNN (x : Reg) (nn : Byte)
  /-- `7XNN` ADD VX, NN (R171). -/
  | addNN (x : Reg) (nn : Byte)
  /-- `8XY0` LD VX, VY (R172). -/
  | ldVY (x y : Reg)
  /-- `8XY1` OR VX, VY (R173). -/
  | orVY (x y : Reg)
  /-- `8XY2` AND VX, VY (R174). -/
  | andVY (x y : Reg)
  /-- `8XY3` XOR VX, VY (R175). -/
  | xorVY (x y : Reg)
  /-- `8XY4` ADD VX, VY (R176). -/
  | addVY (x y : Reg)
  /-- `8XY5` SUB VX, VY (R177). -/
  | subVY (x y : Reg)
  /-- `8XY6` SHR VX; `Y` is not read (R178). -/
  | shr (x : Reg)
  /-- `8XY7` SUBN VX, VY (R179). -/
  | subnVY (x y : Reg)
  /-- `8XYE` SHL VX; `Y` is not read (R180). -/
  | shl (x : Reg)
  /-- `9XY0` SNE VX, VY (41_flow.md R146). -/
  | sneVY (x y : Reg)
  /-- `ANNN` LD I, NNN (43_index_memory.md R210). -/
  | ldI (nnn : Addr12)
  /-- `BNNN` JP V0, NNN (41_flow.md R147). -/
  | jpV0 (nnn : Addr12)
  /-- `CXNN` RND VX, NN (42_alu.md R181). -/
  | rnd (x : Reg) (nn : Byte)
  /-- `DXYN` DRW VX, VY, N; `N` is a row count (40_display.md R121). -/
  | drw (x y : Reg) (n : Nat)
  /-- `EX9E` SKP VX (44_keys_timers.md R230). -/
  | skp (x : Reg)
  /-- `EXA1` SKNP VX (R231). -/
  | sknp (x : Reg)
  /-- `FX07` LD VX, DT (R232). -/
  | ldVXDT (x : Reg)
  /-- `FX0A` LD VX, K (R233). -/
  | ldVXK (x : Reg)
  /-- `FX15` LD DT, VX (R234). -/
  | ldDTVX (x : Reg)
  /-- `FX18` LD ST, VX (R235). -/
  | ldSTVX (x : Reg)
  /-- `FX1E` ADD I, VX (43_index_memory.md R211). -/
  | addIVX (x : Reg)
  /-- `FX29` LD F, VX (R212). -/
  | ldFVX (x : Reg)
  /-- `FX33` LD B, VX (R213). -/
  | ldBVX (x : Reg)
  /-- `FX55` LD [I], VX (R214). -/
  | storeRegs (x : Reg)
  /-- `FX65` LD VX, [I] (R215). -/
  | loadRegs (x : Reg)
  deriving DecidableEq, Repr

end Sys2Proof
end

