-- ==== Sys2Proof/WellFormed.lean ====
section
/-! DEFINITION. Which instructions an encoding exists for. Register indices, bytes and addresses are well formed by
their types (30_encoding.md R92); the one operand with a check is the row count `N` of DXYN, "a count from 0 to 15". -/

namespace Sys2Proof

/-- The check (30_encoding.md R92). -/
def Instr.wellFormed (i : Instr) : Bool :=
  match i with
  | .cls | .ret | .jp _ | .call _ | .ldI _ | .jpV0 _ => true
  | .seNN _ _ | .sneNN _ _ | .ldNN _ _ | .addNN _ _ | .rnd _ _ => true
  | .seVY _ _ | .sneVY _ _ | .ldVY _ _ | .orVY _ _ | .andVY _ _ | .xorVY _ _ => true
  | .addVY _ _ | .subVY _ _ | .subnVY _ _ | .shr _ | .shl _ => true
  | .drw _ _ n => decide (n ≤ 15)
  | .skp _ | .sknp _ | .ldVXDT _ | .ldVXK _ | .ldDTVX _ | .ldSTVX _ => true
  | .addIVX _ | .ldFVX _ | .ldBVX _ | .storeRegs _ | .loadRegs _ => true

/-- The check as a proposition. -/
abbrev Instr.WellFormed (i : Instr) : Prop := i.wellFormed = true

end Sys2Proof
end

