-- ==== Sys2Proof/Decode.lean ====
section
/-! DEFINITION. Decoding (30_encoding.md R90 to R101): the fields of a word, the primary table, the secondary table and
the three low-byte switches, the decoder on bytes, and the encoder written from the same patterns. -/

namespace Sys2Proof

/-! ### The fields of a word (R91) -/

/-- `F = op[15:12]`, the family. -/
def fieldF (op : Word) : Nibble := op.extractLsb' 12 4

/-- `X = op[11:8]`. -/
def fieldX (op : Word) : Reg := (op.extractLsb' 8 4).toFin

/-- `Y = op[7:4]`. -/
def fieldY (op : Word) : Reg := (op.extractLsb' 4 4).toFin

/-- `N = op[3:0]`. -/
def fieldN (op : Word) : Nibble := op.extractLsb' 0 4

/-- `NN = op[7:0]`. -/
def fieldNN (op : Word) : Byte := op.extractLsb' 0 8

/-- `NNN = op[11:0]`. -/
def fieldNNN (op : Word) : Addr12 := op.extractLsb' 0 12

/-! ### The tables. `none` is an unimplemented encoding (R100). -/

/-- The family 0 switch, keyed on the low byte alone (R96). -/
def decodeFamily0 (op : Word) : Option Instr :=
  match (fieldNN op).toNat with
  | 0xE0 => some .cls
  | 0xEE => some .ret
  | _ => none

/-- The secondary table under primary entry 8 (R95, C1). -/
def decodeFamily8 (op : Word) : Option Instr :=
  match (fieldN op).toNat with
  | 0x0 => some (.ldVY (fieldX op) (fieldY op))
  | 0x1 => some (.orVY (fieldX op) (fieldY op))
  | 0x2 => some (.andVY (fieldX op) (fieldY op))
  | 0x3 => some (.xorVY (fieldX op) (fieldY op))
  | 0x4 => some (.addVY (fieldX op) (fieldY op))
  | 0x5 => some (.subVY (fieldX op) (fieldY op))
  | 0x6 => some (.shr (fieldX op))
  | 0x7 => some (.subnVY (fieldX op) (fieldY op))
  | 0xE => some (.shl (fieldX op))
  | _ => none

/-- The family E switch (R97). -/
def decodeFamilyE (op : Word) : Option Instr :=
  match (fieldNN op).toNat with
  | 0x9E => some (.skp (fieldX op))
  | 0xA1 => some (.sknp (fieldX op))
  | _ => none

/-- The family F switch (R98). -/
def decodeFamilyF (op : Word) : Option Instr :=
  match (fieldNN op).toNat with
  | 0x07 => some (.ldVXDT (fieldX op))
  | 0x0A => some (.ldVXK (fieldX op))
  | 0x15 => some (.ldDTVX (fieldX op))
  | 0x18 => some (.ldSTVX (fieldX op))
  | 0x1E => some (.addIVX (fieldX op))
  | 0x29 => some (.ldFVX (fieldX op))
  | 0x33 => some (.ldBVX (fieldX op))
  | 0x55 => some (.storeRegs (fieldX op))
  | 0x65 => some (.loadRegs (fieldX op))
  | _ => none

/-- The primary table (R94). In families 5 and 9 `op[3:0]` is not examined (R99). -/
def decodeWord (op : Word) : Option Instr :=
  match (fieldF op).toNat with
  | 0x0 => decodeFamily0 op
  | 0x1 => some (.jp (fieldNNN op))
  | 0x2 => some (.call (fieldNNN op))
  | 0x3 => some (.seNN (fieldX op) (fieldNN op))
  | 0x4 => some (.sneNN (fieldX op) (fieldNN op))
  | 0x5 => some (.seVY (fieldX op) (fieldY op))
  | 0x6 => some (.ldNN (fieldX op) (fieldNN op))
  | 0x7 => some (.addNN (fieldX op) (fieldNN op))
  | 0x8 => decodeFamily8 op
  | 0x9 => some (.sneVY (fieldX op) (fieldY op))
  | 0xA => some (.ldI (fieldNNN op))
  | 0xB => some (.jpV0 (fieldNNN op))
  | 0xC => some (.rnd (fieldX op) (fieldNN op))
  | 0xD => some (.drw (fieldX op) (fieldY op) (fieldN op).toNat)
  | 0xE => decodeFamilyE op
  | _ => decodeFamilyF op

/-! ### Bytes -/

/-- Why a byte sequence gives no instruction. -/
inductive DecodeReject where
  /-- Fewer than the two bytes every instruction takes (R90). -/
  | tooShort
  /-- An unimplemented encoding (R100): the step runs the report handler on it, so it stops nothing. -/
  | unimplemented (op : Word)
  deriving DecidableEq, Repr

/-- The word two bytes form, big-endian: the byte at the lower address is the high one (20_memory.md R64). -/
def wordOfBytes (hi lo : Byte) : Word := hi ++ lo

/-- The high byte of a word, stored at the lower address (R64). -/
def highByte (w : Word) : Byte := w.extractLsb' 8 8

/-- The low byte of a word (R64). -/
def lowByte (w : Word) : Byte := w.extractLsb' 0 8

/-- The decoder on bytes: it consumes exactly two (R90) and rejects by name. -/
def decode (bytes : List Byte) : Except DecodeReject (Instr × List Byte) :=
  match bytes with
  | hi :: lo :: rest =>
    match decodeWord (wordOfBytes hi lo) with
    | some i => .ok (i, rest)
    | none => .error (.unimplemented (wordOfBytes hi lo))
  | _ => .error .tooShort

/-! ### The encoder -/

/-- `FXYN` from its four digits (R91). -/
def word4 (f x y n : Nibble) : Word := f ++ x ++ y ++ n

/-- `FXNN` (R91). -/
def wordXNN (f x : Nibble) (nn : Byte) : Word := f ++ x ++ nn

/-- `FNNN` (R91). -/
def wordNNN (f : Nibble) (nnn : Addr12) : Word := f ++ nnn

/-- A register index as a four-bit field. -/
def regField (x : Reg) : Nibble := BitVec.ofFin x

/-- The word of a well-formed instruction, with every bit that no handler examines 0: the canonical spelling of C7 and
of 30_encoding.md R102. The patterns are those of R91 and of each instruction's rule. -/
def encode (i : Instr) : Word :=
  match i with
  | .cls => word4 0x0 0x0 0xE 0x0
  | .ret => word4 0x0 0x0 0xE 0xE
  | .jp nnn => wordNNN 0x1 nnn
  | .call nnn => wordNNN 0x2 nnn
  | .seNN x nn => wordXNN 0x3 (regField x) nn
  | .sneNN x nn => wordXNN 0x4 (regField x) nn
  | .seVY x y => word4 0x5 (regField x) (regField y) 0x0
  | .ldNN x nn => wordXNN 0x6 (regField x) nn
  | .addNN x nn => wordXNN 0x7 (regField x) nn
  | .ldVY x y => word4 0x8 (regField x) (regField y) 0x0
  | .orVY x y => word4 0x8 (regField x) (regField y) 0x1
  | .andVY x y => word4 0x8 (regField x) (regField y) 0x2
  | .xorVY x y => word4 0x8 (regField x) (regField y) 0x3
  | .addVY x y => word4 0x8 (regField x) (regField y) 0x4
  | .subVY x y => word4 0x8 (regField x) (regField y) 0x5
  | .shr x => word4 0x8 (regField x) 0x0 0x6
  | .subnVY x y => word4 0x8 (regField x) (regField y) 0x7
  | .shl x => word4 0x8 (regField x) 0x0 0xE
  | .sneVY x y => word4 0x9 (regField x) (regField y) 0x0
  | .ldI nnn => wordNNN 0xA nnn
  | .jpV0 nnn => wordNNN 0xB nnn
  | .rnd x nn => wordXNN 0xC (regField x) nn
  | .drw x y n => word4 0xD (regField x) (regField y) (BitVec.ofNat 4 n)
  | .skp x => wordXNN 0xE (regField x) 0x9E
  | .sknp x => wordXNN 0xE (regField x) 0xA1
  | .ldVXDT x => wordXNN 0xF (regField x) 0x07
  | .ldVXK x => wordXNN 0xF (regField x) 0x0A
  | .ldDTVX x => wordXNN 0xF (regField x) 0x15
  | .ldSTVX x => wordXNN 0xF (regField x) 0x18
  | .addIVX x => wordXNN 0xF (regField x) 0x1E
  | .ldFVX x => wordXNN 0xF (regField x) 0x29
  | .ldBVX x => wordXNN 0xF (regField x) 0x33
  | .storeRegs x => wordXNN 0xF (regField x) 0x55
  | .loadRegs x => wordXNN 0xF (regField x) 0x65

/-- A word as the two bytes memory holds, the high one first (20_memory.md R64). -/
def bytesOfWord (w : Word) : List Byte := [highByte w, lowByte w]

/-- The bytes of an instruction as memory holds them. -/
def encodeBytes (i : Instr) : List Byte := bytesOfWord (encode i)

/-- The bits of an instruction's word that decoding examines (R99): all but `op[11:8]` in family 0, `op[3:0]` in
families 5 and 9, and `op[7:4]` in the shifts. -/
def examinedBits (i : Instr) : Word :=
  match i with
  | .cls | .ret => 0xF0FF
  | .seVY _ _ | .sneVY _ _ => 0xFFF0
  | .shr _ | .shl _ => 0xFF0F
  | .jp _ | .call _ | .ldI _ | .jpV0 _ => 0xFFFF
  | .seNN _ _ | .sneNN _ _ | .ldNN _ _ | .addNN _ _ | .rnd _ _ => 0xFFFF
  | .ldVY _ _ | .orVY _ _ | .andVY _ _ | .xorVY _ _ | .addVY _ _ | .subVY _ _ | .subnVY _ _ => 0xFFFF
  | .drw _ _ _ | .skp _ | .sknp _ => 0xFFFF
  | .ldVXDT _ | .ldVXK _ | .ldDTVX _ | .ldSTVX _ => 0xFFFF
  | .addIVX _ | .ldFVX _ | .ldBVX _ | .storeRegs _ | .loadRegs _ => 0xFFFF

/-! ### The opcode table -/

/-- One row of spec/opcode_table.json: a word belongs to it when its masked bits are `pat`. -/
structure OpcodeRow where
  /-- The row's `mask`. -/
  mask : Word
  /-- The row's `match`. -/
  pat : Word
  deriving DecidableEq, Repr

/-- A word matches a row (30_encoding.md R101). -/
def OpcodeRow.matches (r : OpcodeRow) (w : Word) : Bool := w &&& r.mask == r.pat

/-- The row of spec/opcode_table.json an instruction stands for. -/
def rowOf (i : Instr) : OpcodeRow :=
  match i with
  | .cls => ⟨0xF0FF, 0x00E0⟩
  | .ret => ⟨0xF0FF, 0x00EE⟩
  | .jp _ => ⟨0xF000, 0x1000⟩
  | .call _ => ⟨0xF000, 0x2000⟩
  | .seNN _ _ => ⟨0xF000, 0x3000⟩
  | .sneNN _ _ => ⟨0xF000, 0x4000⟩
  | .seVY _ _ => ⟨0xF000, 0x5000⟩
  | .ldNN _ _ => ⟨0xF000, 0x6000⟩
  | .addNN _ _ => ⟨0xF000, 0x7000⟩
  | .ldVY _ _ => ⟨0xF00F, 0x8000⟩
  | .orVY _ _ => ⟨0xF00F, 0x8001⟩
  | .andVY _ _ => ⟨0xF00F, 0x8002⟩
  | .xorVY _ _ => ⟨0xF00F, 0x8003⟩
  | .addVY _ _ => ⟨0xF00F, 0x8004⟩
  | .subVY _ _ => ⟨0xF00F, 0x8005⟩
  | .shr _ => ⟨0xF00F, 0x8006⟩
  | .subnVY _ _ => ⟨0xF00F, 0x8007⟩
  | .shl _ => ⟨0xF00F, 0x800E⟩
  | .sneVY _ _ => ⟨0xF000, 0x9000⟩
  | .ldI _ => ⟨0xF000, 0xA000⟩
  | .jpV0 _ => ⟨0xF000, 0xB000⟩
  | .rnd _ _ => ⟨0xF000, 0xC000⟩
  | .drw _ _ _ => ⟨0xF000, 0xD000⟩
  | .skp _ => ⟨0xF0FF, 0xE09E⟩
  | .sknp _ => ⟨0xF0FF, 0xE0A1⟩
  | .ldVXDT _ => ⟨0xF0FF, 0xF007⟩
  | .ldVXK _ => ⟨0xF0FF, 0xF00A⟩
  | .ldDTVX _ => ⟨0xF0FF, 0xF015⟩
  | .ldSTVX _ => ⟨0xF0FF, 0xF018⟩
  | .addIVX _ => ⟨0xF0FF, 0xF01E⟩
  | .ldFVX _ => ⟨0xF0FF, 0xF029⟩
  | .ldBVX _ => ⟨0xF0FF, 0xF033⟩
  | .storeRegs _ => ⟨0xF0FF, 0xF055⟩
  | .loadRegs _ => ⟨0xF0FF, 0xF065⟩

/-- Rows 1 to 17 of the table, in its order. -/
def tableLow : List OpcodeRow :=
  [⟨0xF0FF, 0x00E0⟩, ⟨0xF0FF, 0x00EE⟩, ⟨0xF000, 0x1000⟩, ⟨0xF000, 0x2000⟩, ⟨0xF000, 0x3000⟩, ⟨0xF000, 0x4000⟩,
   ⟨0xF000, 0x5000⟩, ⟨0xF000, 0x6000⟩, ⟨0xF000, 0x7000⟩, ⟨0xF00F, 0x8000⟩, ⟨0xF00F, 0x8001⟩, ⟨0xF00F, 0x8002⟩,
   ⟨0xF00F, 0x8003⟩, ⟨0xF00F, 0x8004⟩, ⟨0xF00F, 0x8005⟩, ⟨0xF00F, 0x8006⟩, ⟨0xF00F, 0x8007⟩]

/-- Rows 18 to 34 of the table, in its order. -/
def tableHigh : List OpcodeRow :=
  [⟨0xF00F, 0x800E⟩, ⟨0xF000, 0x9000⟩, ⟨0xF000, 0xA000⟩, ⟨0xF000, 0xB000⟩, ⟨0xF000, 0xC000⟩, ⟨0xF000, 0xD000⟩,
   ⟨0xF0FF, 0xE09E⟩, ⟨0xF0FF, 0xE0A1⟩, ⟨0xF0FF, 0xF007⟩, ⟨0xF0FF, 0xF00A⟩, ⟨0xF0FF, 0xF015⟩, ⟨0xF0FF, 0xF018⟩,
   ⟨0xF0FF, 0xF01E⟩, ⟨0xF0FF, 0xF029⟩, ⟨0xF0FF, 0xF033⟩, ⟨0xF0FF, 0xF055⟩, ⟨0xF0FF, 0xF065⟩]

/-- The 34 rows of spec/opcode_table.json (00_scope.md R1). -/
def opcodeTable : List OpcodeRow := tableLow ++ tableHigh

/-! ### The host's view of a table word -/

/-- The word of an instruction whose bits are `w` in the table's numbering: bit 0 is the least significant bit of the
first word, and every bit at or above `nbits` is 0. Every instruction is one word (R90), so no second word exists. -/
def tableWord (nbits w : Nat) : Word := BitVec.ofNat 16 (w % 2 ^ nbits)

/-- What the decoder reads from that instruction, laid out as memory holds it. -/
def decodeTableWord (nbits w : Nat) : Option Instr :=
  match decode (bytesOfWord (tableWord nbits w)) with
  | .ok (i, _) => some i
  | .error _ => none

end Sys2Proof
end

