-- ==== Sys2Proof/Config.lean ====
section
/-! DEFINITION. What is fixed for a machine: the sizes of 00_scope.md R6, the parameters `FONT` and
`INDEX_INCREMENT_ON_BLOCK` (10_state.md R36), and the free value `rand8` (R13). -/

namespace Sys2Proof.Config

/-- `MEM_SIZE`: addresses 0x000 to 0xFFF (R6). -/
abbrev memSize : Nat := 4096

/-- `PROG_BASE`: the loader's first address and the reset value of `pc` (R6, 10_state.md R25). -/
abbrev progBase : Nat := 0x200

/-- `PROG_MAX_LEN`: 4096 - 0x200 bytes (R6, 20_memory.md R74). -/
abbrev progMaxLen : Nat := 3584

/-- `FONT_GLYPHS` x `FONT_GLYPH_BYTES`: 16 glyphs of 5 bytes from address 0 (R6). -/
abbrev fontSize : Nat := 80

/-- `SCREEN_W` (R6). -/
abbrev screenW : Nat := 64

/-- `SCREEN_H` (R6). -/
abbrev screenH : Nat := 32

/-- `STACK_DEPTH` (R6). -/
abbrev stackDepth : Nat := 16

/-- The type of the parameter `FONT`: 80 bytes (10_state.md R39). -/
abbrev Font := Vector Byte fontSize

/-- Glyphs 0 to 7 of the default `FONT`, one glyph a line (10_state.md R39). PRESUMED: the spec takes these bytes
from general knowledge (log 5). -/
def fontLow : List Byte :=
  [0xF0, 0x90, 0x90, 0x90, 0xF0,
   0x20, 0x60, 0x20, 0x20, 0x70,
   0xF0, 0x10, 0xF0, 0x80, 0xF0,
   0xF0, 0x10, 0xF0, 0x10, 0xF0,
   0x90, 0x90, 0xF0, 0x10, 0x10,
   0xF0, 0x80, 0xF0, 0x10, 0xF0,
   0xF0, 0x80, 0xF0, 0x90, 0xF0,
   0xF0, 0x10, 0x20, 0x40, 0x40]

/-- Glyphs 8 to F of the default `FONT` (10_state.md R39, log 5). -/
def fontHigh : List Byte :=
  [0xF0, 0x90, 0xF0, 0x90, 0xF0,
   0xF0, 0x90, 0xF0, 0x10, 0xF0,
   0xF0, 0x90, 0xF0, 0x90, 0x90,
   0xE0, 0x90, 0xE0, 0x90, 0xE0,
   0xF0, 0x80, 0x80, 0x80, 0xF0,
   0xE0, 0x90, 0x90, 0x90, 0xE0,
   0xF0, 0x80, 0xF0, 0x80, 0xF0,
   0xF0, 0x80, 0xF0, 0x80, 0x80]

/-- The default `FONT` (10_state.md R39). -/
def defaultFont : Font := ⟨(fontLow ++ fontHigh).toArray, by decide⟩

/-- The two parameters of the block (10_state.md R36): an argument of the model, fixed for a machine. They stand in
State because `step` has no other argument (log 5); no step writes them. -/
structure Params where
  /-- `FONT`, read at reset (R36, R39). -/
  font : Font
  /-- `INDEX_INCREMENT_ON_BLOCK`: whether FX55 and FX65 advance `I` (43_index_memory.md R216). -/
  indexIncrementOnBlock : Bool
  deriving DecidableEq, Repr

/-- The default of each parameter (R6, R39, R216). -/
def defaultParams : Params := { font := defaultFont, indexIncrementOnBlock := false }

/-- FREE VALUE: `rand8`, the byte supplied to the `n`-th CXNN from outside the block (00_scope.md R13, 42_alu.md R181).
Nothing constrains it: every claim holds whatever it is (log 3). -/
opaque rand8 : Nat → Byte

end Sys2Proof.Config
end

