-- ==== Sys2Proof/Machine/State.lean ====
section
/-! DEFINITION. The Machine State (10_state.md R20 to R38) as plain data, its reset value (70_reset_and_hazards.md R300),
and the reasons a host operation can stop. -/

namespace Sys2Proof.Machine

/-- `memory` (R21): the bytes that differ from what an unlisted address reads as, addresses strictly rising. -/
abbrev Memory := List Host.Cell

/-- `gfx`: 64 x 32 = 2048 one-bit cells, row-major (R30), packed one screen row a vector: cell `k` is bit `k mod 64` of
row `k div 64` (log 8). -/
abbrev Gfx := Vector (BitVec 64) 32

/-- The fault causes (60_exceptions.md R250). Each is TAKEN: the cycle ends in a next state that holds the record. -/
inductive Cause where
  /-- 2NNN with `sp = 16` (41_flow.md R142). -/
  | stackOverflow
  /-- 00EE with `sp = 0` (41_flow.md R140). -/
  | stackUnderflow
  /-- Instruction fetch at 4096 or more (30_encoding.md R93). -/
  | fetchOutOfRange
  /-- DXYN or FX65 reading at 4096 or more (20_memory.md R63). -/
  | readOutOfRange
  /-- FX33 or FX55 writing at 4096 or more (20_memory.md R63). -/
  | writeOutOfRange
  /-- EX9E or EXA1 with `V[X] > 15` (44_keys_timers.md R236). -/
  | keyIndexOutOfRange
  deriving DecidableEq, Repr

/-- `raise <Fault>(info)` (00_scope.md R11): the cause and the value that goes to `fault_info`. -/
structure Raise where
  cause : Cause
  info : BitVec 17
  deriving DecidableEq, Repr

/-- The fault record (10_state.md R34). -/
structure FaultRecord where
  /-- `halted`. -/
  halted : Bool
  /-- `fault_cause`: the code of 60_exceptions.md R250, 0 for none. -/
  cause : BitVec 3
  /-- `fault_pc`. -/
  pc : Word
  /-- `fault_info`. -/
  info : BitVec 17
  deriving DecidableEq, Repr

/-- The record at reset: all fields 0 (R34). -/
def FaultRecord.clear : FaultRecord := { halted := false, cause := 0, pc := 0, info := 0 }

/-- An event of a step's output (60_exceptions.md R268). -/
inductive Event where
  /-- `Unimplemented(opcode, a)` (R254). -/
  | unimplemented (opcode a : Word)
  /-- `ToneEnd` (R260). -/
  | toneEnd
  /-- `Fault(C)` (R251). -/
  | fault (c : Cause)
  deriving DecidableEq, Repr

/-- The Machine State (R20). The last four fields are the model's own (logs 2 to 5). -/
structure State where
  /-- `memory` (R21). -/
  mem : Memory
  /-- The register file (R22); `V[15]` is the flags register (R23). -/
  V : Vector Byte 16
  /-- The index register (R24). -/
  I : Word
  /-- The program counter (R25). -/
  pc : Word
  /-- The call stack (R26). -/
  stack : Vector Word 16
  /-- The stack pointer: the number of live entries, 0 to 16 (R27). -/
  sp : Fin 17
  /-- The delay timer (R28). -/
  DT : Byte
  /-- The sound timer (R29). -/
  ST : Byte
  /-- The framebuffer (R30). -/
  gfx : Gfx
  /-- The key flags, true for pressed (R31). -/
  key : Vector Bool 16
  /-- The draw flag (R32). -/
  drawFlag : Bool
  /-- The opcode latch (R33). -/
  opcode : Word
  /-- The fault record (R34). -/
  fault : FaultRecord
  /-- MODEL'S OWN: the events the most recent step emitted, in order (R268, log 2). -/
  events : List Event
  /-- MODEL'S OWN: how many random bytes CXNN has taken (log 3). -/
  draws : Nat
  /-- MODEL'S OWN: the block has stepped since reset (R75, log 4). -/
  stepped : Bool
  /-- MODEL'S OWN: the parameters of the machine (R36, log 5). -/
  params : Config.Params
  deriving DecidableEq, Repr

/-- Why a HOST OPERATION ends without a state. No step ends so: the six faults of a cycle are taken, as `Cause`s. -/
inductive Fault where
  /-- `LoadError` (20_memory.md R74, 60_exceptions.md R255). Raised by `State.load` alone, for a byte sequence that is
  empty or longer than 3584; nothing is written. Safe: the spec gives the same result. -/
  | loadError
  deriving DecidableEq, Repr

/-- Why the model refuses. -/
inductive Refusal where
  /-- An instruction without a meaning, by its mnemonic. Raised by no arm of `exec`: every instruction has one. Safe. -/
  | notModelled (mnemonic : String)
  /-- `load` into a block that has stepped: "not defined by this spec, and a model refuses it" (20_memory.md R75).
  Raised by `State.load` alone. Safe. -/
  | loadAfterStep
  deriving DecidableEq, Repr

/-- The state after reset (R300) of a machine with the given parameters. Memory lists nothing: an unlisted address
reads as the reset content, the font at [0, 80) and 0 elsewhere (R21). -/
def State.resetWith (p : Config.Params) : State where
  mem := []
  V := Vector.replicate 16 0
  I := 0
  pc := 0x200
  stack := Vector.replicate 16 0
  sp := 0
  DT := 0
  ST := 0
  gfx := Vector.replicate 32 0
  key := Vector.replicate 16 false
  drawFlag := true
  opcode := 0
  fault := FaultRecord.clear
  events := []
  draws := 0
  stepped := false
  params := p

/-- The state after reset with the default parameters (R6, R300). -/
def State.reset : State := State.resetWith Config.defaultParams

end Sys2Proof.Machine
end

