-- ==== Sys2Proof/Machine/Ops.lean ====
section
/-! DEFINITION. The operations every meaning is built from: memory, registers, the call stack, the random draw, and
TAKING A FAULT, the one exception entry of the block (60_exceptions.md R251). -/

namespace Sys2Proof.Machine

/-! ### Memory (20_memory.md R60 to R66) -/

/-- What an unlisted address reads as: its content at reset, `FONT` at [0, 80) and 0 elsewhere (10_state.md R21). -/
def Memory.background (font : Config.Font) (a : Nat) : Byte :=
  if h : a < Config.fontSize then font[a] else 0

/-- The byte listed for an address. -/
def Memory.lookup (m : Memory) (a : Nat) : Option Byte :=
  match m with
  | [] => none
  | c :: rest => if a = c.1 then some c.2 else Memory.lookup rest a

/-- The byte at an address (R69). -/
def Memory.read (font : Config.Font) (m : Memory) (a : Nat) : Byte :=
  (Memory.lookup m a).getD (Memory.background font a)

/-- Put a byte at the head of a list whose addresses all lie above it, unless the address reads so unlisted. -/
def Memory.place (font : Config.Font) (a : Nat) (b : Byte) (rest : Memory) : Memory :=
  if b = Memory.background font a then rest else (a, b) :: rest

/-- Write one byte, keeping the canonical form. -/
def Memory.write (font : Config.Font) (m : Memory) (a : Nat) (b : Byte) : Memory :=
  match m with
  | [] => Memory.place font a b []
  | c :: rest =>
    if a < c.1 then Memory.place font a b (c :: rest)
    else if a = c.1 then Memory.place font a b rest
    else c :: Memory.write font rest a b

/-- The canonical form: addresses strictly rising and below 4096, and no entry equal to the unlisted value. -/
def Memory.wf (font : Config.Font) (m : Memory) : Bool :=
  decide (m.Pairwise (fun c d => c.1 < d.1)) &&
    m.all (fun c => decide (c.1 < Config.memSize) && decide (c.2 ≠ Memory.background font c.1))

/-- The byte of the state's memory at an address. -/
def State.readByte (s : State) (a : Nat) : Byte := Memory.read s.params.font s.mem a

/-- The state with one byte of memory written; the callers check the range. -/
def State.writeByte (s : State) (a : Nat) (b : Byte) : State :=
  { s with mem := Memory.write s.params.font s.mem a b }

/-- The state with a byte sequence written from an address on, verbatim (the loader, R73). -/
def State.writeAll (s : State) (a : Nat) (bytes : List Byte) : State :=
  match bytes with
  | [] => s
  | b :: rest => State.writeAll (s.writeByte a b) (a + 1) rest

/-- An effective address as `fault_info` holds it: it is below 2^17 (R62). -/
def addrInfo (a : Nat) : BitVec 17 := BitVec.ofNat 17 a

/-- `MemRead(a, 1)` (00_scope.md R10). -/
def memRead (s : State) (a : Nat) : Except Raise Byte :=
  if a < Config.memSize then .ok (s.readByte a) else .error ⟨.readOutOfRange, addrInfo a⟩

/-- `MemWrite(a, 1, b)` (R10). -/
def memWrite (s : State) (a : Nat) (b : Byte) : Except Raise State :=
  if a < Config.memSize then .ok (s.writeByte a b) else .error ⟨.writeOutOfRange, addrInfo a⟩

/-- `Fetch(a)` (R10). -/
def fetchByte (s : State) (a : Nat) : Except Raise Byte :=
  if a < Config.memSize then .ok (s.readByte a) else .error ⟨.fetchOutOfRange, addrInfo a⟩

/-- `n` reads at rising addresses, stopped by the first one out of range (20_memory.md R63). -/
def readBytes (s : State) (a n : Nat) : Except Raise (List Byte) :=
  match n with
  | 0 => .ok []
  | k + 1 =>
    match memRead s a with
    | .error r => .error r
    | .ok b =>
      match readBytes s (a + 1) k with
      | .error r => .error r
      | .ok bs => .ok (b :: bs)

/-- One write for each byte at rising addresses, stopped by the first one out of range (20_memory.md R63). -/
def writeBytes (s : State) (a : Nat) (bytes : List Byte) : Except Raise State :=
  match bytes with
  | [] => .ok s
  | b :: rest =>
    match memWrite s a b with
    | .error r => .error r
    | .ok t => writeBytes t (a + 1) rest

/-! ### Registers -/

/-- `V[x]` (00_scope.md R9). -/
def State.getV (s : State) (x : Reg) : Byte := s.V[x.val]

/-- `V[x] <- b` (R9). -/
def State.setV (s : State) (x : Reg) (b : Byte) : State := { s with V := s.V.set x.val b }

/-- `I <- w`. -/
def State.setI (s : State) (w : Word) : State := { s with I := w }

/-- `pc <- w`. -/
def State.setPc (s : State) (w : Word) : State := { s with pc := w }

/-- `DT <- b`. -/
def State.setDT (s : State) (b : Byte) : State := { s with DT := b }

/-- `ST <- b`. -/
def State.setST (s : State) (b : Byte) : State := { s with ST := b }

/-- `gfx[k] = 1`; a number of 2048 or more names no cell (10_state.md R30). -/
def cellLit (g : Gfx) (k : Nat) : Bool := if h : k < 2048 then g[k / 64].getLsbD (k % 64) else false

/-- `gfx <- g; drawFlag <- 1`: every write of the framebuffer sets the draw flag (10_state.md R32). -/
def State.setGfx (s : State) (g : Gfx) : State := { s with gfx := g, drawFlag := true }

/-- The address the running instruction was fetched from. During a handler `pc` is `trunc16(a + 2)` (10_state.md R25),
so this is `a` (log 6). -/
def State.instrAddr (s : State) : Word := s.pc - 2

/-! ### The call stack (41_flow.md R140, R142) -/

/-- `if sp = 16: raise StackOverflow(16); stack[sp] <- w; sp <- sp + 1`. -/
def pushStack (s : State) (w : Word) : Except Raise State :=
  if h : s.sp.val < Config.stackDepth then
    .ok { s with stack := s.stack.set s.sp.val w, sp := ⟨s.sp.val + 1, Nat.succ_lt_succ h⟩ }
  else .error ⟨.stackOverflow, 16⟩

/-- `if sp = 0: raise StackUnderflow(0); sp <- sp - 1; pc <- stack[sp]`. The entry keeps its value (10_state.md R26). -/
def popStack (s : State) : Except Raise State :=
  if h : s.sp.val = 0 then .error ⟨.stackUnderflow, 0⟩
  else
    .ok { s with
      sp := ⟨s.sp.val - 1, Nat.lt_of_le_of_lt (Nat.sub_le _ _) s.sp.isLt⟩
      pc := s.stack[s.sp.val - 1]'(by have := s.sp.isLt; omega) }

/-! ### The random draw (42_alu.md R181) -/

/-- `rand8` for this cycle: a free value (log 3). -/
def State.rand8 (s : State) : Byte := Config.rand8 s.draws

/-- The draw is used up: the next CXNN takes another one. -/
def State.nextDraw (s : State) : State := { s with draws := s.draws + 1 }

/-! ### Taking a fault (60_exceptions.md R250 to R252). There is no return from one: only reset clears the record. -/

/-- The cause codes (R250). -/
def Cause.code (c : Cause) : BitVec 3 :=
  match c with
  | .stackOverflow => 1
  | .stackUnderflow => 2
  | .fetchOutOfRange => 3
  | .readOutOfRange => 4
  | .writeOutOfRange => 5
  | .keyIndexOutOfRange => 6

/-- The record a raise at address `a` leaves (R251). -/
def Raise.record (r : Raise) (a : Word) : FaultRecord :=
  { halted := true, cause := r.cause.code, pc := a, info := r.info }

/-- Taking a fault raised by the instruction at `a`: the record is written and `Fault(C)` is the cycle's one event
(R251, R268). The step then keeps nothing else of the cycle (`endCycle`). -/
def takeFault (r : Raise) (a : Word) (s : State) : State :=
  { s with fault := r.record a, events := [.fault r.cause] }

/-- How a handler ends: with its state, or by taking the fault it raised. -/
def finish (s : State) (result : Except Raise State) : Host.Outcome State Fault Refusal :=
  match result with
  | .ok t => .next t
  | .error r => .next (takeFault r s.instrAddr s)

end Sys2Proof.Machine
end

