-- ==== Sys2Proof/Machine/Cycle.lean ====
section
/-! DEFINITION. The parts of the instruction cycle around the handler (30_encoding.md R93, 60_exceptions.md R253, R254,
R260): Step.lean only puts them together. -/

namespace Sys2Proof.Machine

/-- Fetch the word at `pc`, its high byte first; the second byte's address is `pc + 1`, not truncated (20_memory.md
R62, R64). -/
def fetchWord (s : State) : Except Raise Word :=
  match fetchByte s s.pc.toNat with
  | .error r => .error r
  | .ok hi =>
    match fetchByte s (s.pc.toNat + 1) with
    | .error r => .error r
    | .ok lo => .ok (wordOfBytes hi lo)

/-- The state a handler gets: no event yet, the word latched, `pc` advanced before the handler (R93). -/
def beginCycle (w : Word) (s : State) : State :=
  { s with opcode := w, pc := s.pc + 2, events := [], stepped := true }

/-- The unimplemented-opcode handler: `report Unimplemented(opcode, a)` and nothing else (R254). -/
def execUnimplemented (s : State) : State :=
  { s with events := s.events ++ [.unimplemented s.opcode s.instrAddr] }

/-- A timer after one Timer Step: never below zero (R260, R261). -/
def countDown (t : Byte) : Byte := if t = 0 then 0 else t - 1

/-- The Timer Step: both timers count down, and a sound timer found at exactly 1 emits `ToneEnd` (R260, R262). -/
def timerStep (s : State) : State :=
  { s with
    DT := countDown s.DT
    ST := countDown s.ST
    events := if s.ST = 1 then s.events ++ [.toneEnd] else s.events }

/-- A faulting cycle started at `s` keeps nothing but the fault record and the event (R251, R252, 00_scope.md R11). -/
def keepFault (s t : State) : State := { s with fault := t.fault, events := t.events, stepped := true }

/-- The end of the cycle started at `s` whose handler left `t`: a raise discards every staged write, any other cycle
runs the Timer Step and commits (R93, R11). -/
def endCycle (s t : State) : State := if t.fault.halted then keepFault s t else timerStep t

/-- A fetch that raised: the fault is taken at the address the cycle tried to fetch from (R251). -/
def fetchFault (r : Raise) (s : State) : State := keepFault s (takeFault r s.pc s)

/-- A step of a halted block: nothing happens and no event is output (R253). -/
def haltedStep (s : State) : State := { s with events := [] }

/-- The end of the cycle, on the outcome of the handler. -/
def commit (s : State) (o : Host.Outcome State Fault Refusal) : Host.Outcome State Fault Refusal :=
  match o with
  | .next t => .next (endCycle s t)
  | .fault r => .fault r
  | .refused r => .refused r

/-- The two bytes of a table word stored where the next fetch reads them: at `pc`, the high byte first. A `pc` of 4095 or
more has no two bytes of memory to hold them, and the state stays as it is (log 1). -/
def storeFetchWord (s : State) (nbits w : Nat) : State :=
  if s.pc.toNat + 1 < Config.memSize then s.writeAll s.pc.toNat (bytesOfWord (tableWord nbits w)) else s

end Sys2Proof.Machine
end

