-- ==== Sys2Proof/Machine/Flags.lean ====
section
/-! DEFINITION. Every flag computation of the block (10_state.md R23, 42_alu.md R182): the flag is the byte 1 or 0, and
it goes to `V[F]`. The collision flag of DXYN is computed by the drawing itself (Display.lean). -/

namespace Sys2Proof.Machine

/-- A flag as a byte. -/
def flagByte (c : Bool) : Byte := if c then 1 else 0

/-- `V[F] <- c`. -/
def State.setFlag (s : State) (c : Bool) : State := s.setV VF (flagByte c)

/-- The carry of an addition: the unbounded sum exceeds 255 (R176). -/
def carry (x y : Byte) : Bool := decide (x.toNat + y.toNat > 255)

/-- The no-borrow flag of `x - y`: the minuend is at least the subtrahend (R177, R179). -/
def noBorrow (x y : Byte) : Bool := decide (x.toNat ≥ y.toNat)

/-- The bit a right shift moves out (R178). -/
def lowBit (x : Byte) : Bool := x.getLsbD 0

/-- The bit a left shift moves out (R180). -/
def highBit (x : Byte) : Bool := x.getLsbD 7

end Sys2Proof.Machine
end

