-- ==== Sys2Proof/Machine/Operands.lean ====
section
/-! DEFINITION. The operand forms (30_encoding.md R92, 20_memory.md R62): the zero-extended immediates, the one
addressing mode, the register block of FX55 and FX65, the decimal digits of FX33 and the key a register names. -/

namespace Sys2Proof.Machine

/-- `zext_16(NNN)` (R92). -/
def immAddr (nnn : Addr12) : Word := nnn.setWidth 16

/-- `I + 0`, the first effective address of a data access: an unbounded integer (20_memory.md R62). -/
def baseAddr (s : State) : Nat := s.I.toNat

/-- `V[0] .. V[X]`, in the order FX55 stores them (43_index_memory.md R214). -/
def regBlock (s : State) (x : Reg) : List Byte := s.V.toList.take (x.val + 1)

/-- `V[k] <- b` for each byte, from register `k` on (R215). A byte past `V[15]` has no register; none occurs. -/
def setRegBlock (s : State) (k : Nat) (bytes : List Byte) : State :=
  match bytes with
  | [] => s
  | b :: rest =>
    if h : k < 16 then setRegBlock (s.setV ⟨k, h⟩ b) (k + 1) rest else s

/-- `if INDEX_INCREMENT_ON_BLOCK: I <- trunc16(I + X + 1)` (R216). -/
def advanceIndex (s : State) (x : Reg) : State :=
  if s.params.indexIncrementOnBlock then s.setI (trunc16 (s.I.toNat + x.val + 1)) else s

/-- The hundreds, tens and units digits of a byte (R213). -/
def bcdDigits (v : Byte) : List Byte :=
  [trunc8 (v.toNat / 100), trunc8 (v.toNat / 10 % 10), trunc8 (v.toNat % 10)]

/-- `key[k]`, or the raise of 44_keys_timers.md R236 when `k > 15`. -/
def keyNamed (s : State) (k : Byte) : Except Raise Bool :=
  if h : k.toNat < 16 then .ok s.key[k.toNat] else .error ⟨.keyIndexOutOfRange, k.setWidth 17⟩

/-- The smallest pressed key, if any is pressed (R233). -/
def firstKey (s : State) : Option Reg := (List.finRange 16).find? (fun k => s.key[k.val])

/-- `if c: pc <- trunc16(pc + 2)`: a skip (41_flow.md R148). -/
def skipIf (c : Bool) (s : State) : State := if c then s.setPc (s.pc + 2) else s

end Sys2Proof.Machine
end

