-- ==== Sys2Proof/Machine/Alu.lean ====
section
/-! DEFINITION. Register and ALU instructions (42_alu.md). None touches memory, `I` or the stack, and none can fault. -/

namespace Sys2Proof.Machine

/-- `6XNN`: `V[X] <- NN` (R170). -/
def execLdNN (x : Reg) (nn : Byte) (s : State) : Host.Outcome State Fault Refusal := .next (s.setV x nn)

/-- `7XNN`: `V[X] <- trunc8(V[X] + NN)`; no flag (R171). -/
def execAddNN (x : Reg) (nn : Byte) (s : State) : Host.Outcome State Fault Refusal :=
  .next (s.setV x (trunc8 ((s.getV x).toNat + nn.toNat)))

/-- `8XY0`: `V[X] <- V[Y]` (R172). -/
def execLdVY (x y : Reg) (s : State) : Host.Outcome State Fault Refusal := .next (s.setV x (s.getV y))

/-- `8XY1`: `V[X] <- V[X] OR V[Y]`; no flag (R173). -/
def execOrVY (x y : Reg) (s : State) : Host.Outcome State Fault Refusal :=
  .next (s.setV x (s.getV x ||| s.getV y))

/-- `8XY2`: `V[X] <- V[X] AND V[Y]`; no flag (R174). -/
def execAndVY (x y : Reg) (s : State) : Host.Outcome State Fault Refusal :=
  .next (s.setV x (s.getV x &&& s.getV y))

/-- `8XY3`: `V[X] <- V[X] XOR V[Y]`; no flag (R175). -/
def execXorVY (x y : Reg) (s : State) : Host.Outcome State Fault Refusal :=
  .next (s.setV x (s.getV x ^^^ s.getV y))

/-- The result to `V[X]`, then the flag to `V[F]`: the write order of R183. -/
def setResultThenFlag (s : State) (x : Reg) (result : Byte) (flag : Bool) : State :=
  (s.setV x result).setFlag flag

/-- `8XY4`: both operands are read, then `V[X] <- trunc8(x + y)`, then `V[F] <-` the carry (R176, R183). -/
def execAddVY (x y : Reg) (s : State) : Host.Outcome State Fault Refusal :=
  .next (setResultThenFlag s x (trunc8 ((s.getV x).toNat + (s.getV y).toNat)) (carry (s.getV x) (s.getV y)))

/-- `8XY5`: `V[X] <- trunc8(x - y)`, then `V[F] <-` no borrow (R177, R183). -/
def execSubVY (x y : Reg) (s : State) : Host.Outcome State Fault Refusal :=
  .next (setResultThenFlag s x (s.getV x - s.getV y) (noBorrow (s.getV x) (s.getV y)))

/-- `8XY7`: `V[X] <- trunc8(y - x)`, then `V[F] <-` no borrow (R179, R183). -/
def execSubnVY (x y : Reg) (s : State) : Host.Outcome State Fault Refusal :=
  .next (setResultThenFlag s x (s.getV y - s.getV x) (noBorrow (s.getV y) (s.getV x)))

/-- `V[X] <- V[X] div 2`. -/
def halveReg (x : Reg) (s : State) : State := s.setV x (trunc8 ((s.getV x).toNat / 2))

/-- `V[X] <- trunc8(V[X] * 2)`. -/
def doubleReg (x : Reg) (s : State) : State := s.setV x (trunc8 ((s.getV x).toNat * 2))

/-- `8XY6`: `V[F] <- V[X][0]`, then `V[X] <- V[X] div 2`, which reads `V[X]` after the flag write (R178). -/
def execShr (x : Reg) (s : State) : Host.Outcome State Fault Refusal :=
  .next (halveReg x (s.setFlag (lowBit (s.getV x))))

/-- `8XYE`: `V[F] <- V[X][7]`, then `V[X] <- trunc8(V[X] * 2)`, which reads `V[X]` after the flag write (R180). -/
def execShl (x : Reg) (s : State) : Host.Outcome State Fault Refusal :=
  .next (doubleReg x (s.setFlag (highBit (s.getV x))))

/-- `CXNN`: `V[X] <- rand8 AND NN`; `rand8` is a free value (R181, log 3). -/
def execRnd (x : Reg) (nn : Byte) (s : State) : Host.Outcome State Fault Refusal :=
  .next (s.nextDraw.setV x (s.rand8 &&& nn))

end Sys2Proof.Machine
end

