-- ==== Sys2Proof/Machine/Display.lean ====
section
/-! DEFINITION. Display instructions (40_display.md). -/

namespace Sys2Proof.Machine

/-- The cell at a column and a row, each reduced to the screen: `gfx[(y mod 32) * 64 + (x mod 64)]` (R124,
10_state.md R30). -/
def cellIndex (x y : Nat) : Nat := y % Config.screenH * Config.screenW + x % Config.screenW

/-- `gfx[k] <- gfx[k] XOR 1`. -/
def toggleCell (g : Gfx) (k : Nat) : Gfx :=
  if h : k < 2048 then
    g.set (k / 64) (g[k / 64] ^^^ (1#64 <<< (k % 64)))
  else g

/-- Column `c` of a sprite row byte: bit 7 is column 0 (R122). -/
def spriteBit (row : Byte) (c : Nat) : Bool := row.getLsbD (7 - c)

/-- A drawing under way: the framebuffer and the collision flag. -/
structure Drawing where
  gfx : Gfx
  collision : Bool
  deriving DecidableEq, Repr

/-- One pixel of a sprite row, drawn at column `x0 + c` and row `y` (R121). -/
def drawPixel (x0 y : Nat) (row : Byte) (d : Drawing) (c : Nat) : Drawing :=
  if spriteBit row c then
    { gfx := toggleCell d.gfx (cellIndex (x0 + c) y)
      collision := d.collision || cellLit d.gfx (cellIndex (x0 + c) y) }
  else d

/-- The eight pixels of one sprite row (R121). -/
def drawRow (x0 y : Nat) (row : Byte) (d : Drawing) : Drawing :=
  (List.range 8).foldl (drawPixel x0 y row) d

/-- The rows of a sprite, the first at row `y` (R121). -/
def drawRows (x0 y : Nat) (rows : List Byte) (d : Drawing) : Drawing :=
  match rows with
  | [] => d
  | row :: rest => drawRows x0 (y + 1) rest (drawRow x0 y row d)

/-- A whole sprite at `(x, y)` (R121). -/
def drawSprite (x y : Byte) (rows : List Byte) (g : Gfx) : Drawing :=
  drawRows x.toNat y.toNat rows { gfx := g, collision := false }

/-- What a finished drawing leaves: `gfx`, `drawFlag` and `V[F] <- collision`, written after every cell (R123). -/
def showDrawing (s : State) (d : Drawing) : State := (s.setGfx d.gfx).setFlag d.collision

/-- `00E0`: every cell 0, `drawFlag <- 1` (R120). -/
def execCls (s : State) : Host.Outcome State Fault Refusal := .next (s.setGfx (Vector.replicate 32 0))

/-- `DXYN`: read the N rows, draw them at `(V[X], V[Y])`, write `V[F]` and `drawFlag` (R121). All reads come before any
write, so `X = F` or `Y = F` uses the old `V[F]` (R123). -/
def execDrw (x y : Reg) (n : Nat) (s : State) : Host.Outcome State Fault Refusal :=
  finish s ((readBytes s (baseAddr s) n).map
    (fun rows => showDrawing s (drawSprite (s.getV x) (s.getV y) rows s.gfx)))

end Sys2Proof.Machine
end

