-- ==== Sys2Proof/Machine/Flow.lean ====
section
/-! DEFINITION. Control transfer (41_flow.md). On entry to each handler `pc` is the address of the following word. -/

namespace Sys2Proof.Machine

/-- `00EE`: pop the return address into `pc` (R140). -/
def execRet (s : State) : Host.Outcome State Fault Refusal := finish s (popStack s)

/-- `1NNN`: `pc <- zext_16(NNN)` (R141). -/
def execJp (nnn : Addr12) (s : State) : Host.Outcome State Fault Refusal := .next (s.setPc (immAddr nnn))

/-- `2NNN`: push `pc`, then `pc <- zext_16(NNN)` (R142). -/
def execCall (nnn : Addr12) (s : State) : Host.Outcome State Fault Refusal :=
  finish s ((pushStack s s.pc).map (fun t => t.setPc (immAddr nnn)))

/-- `3XNN`: skip if `V[X] = NN` (R143). -/
def execSeNN (x : Reg) (nn : Byte) (s : State) : Host.Outcome State Fault Refusal :=
  .next (skipIf (s.getV x == nn) s)

/-- `4XNN`: skip if `V[X] ≠ NN` (R144). -/
def execSneNN (x : Reg) (nn : Byte) (s : State) : Host.Outcome State Fault Refusal :=
  .next (skipIf (s.getV x != nn) s)

/-- `5XY0`: skip if `V[X] = V[Y]` (R145). -/
def execSeVY (x y : Reg) (s : State) : Host.Outcome State Fault Refusal :=
  .next (skipIf (s.getV x == s.getV y) s)

/-- `9XY0`: skip if `V[X] ≠ V[Y]` (R146). -/
def execSneVY (x y : Reg) (s : State) : Host.Outcome State Fault Refusal :=
  .next (skipIf (s.getV x != s.getV y) s)

/-- `BNNN`: `pc <- V[0] + NNN`, at most 0x10FE (R147). -/
def execJpV0 (nnn : Addr12) (s : State) : Host.Outcome State Fault Refusal :=
  .next (s.setPc (trunc16 ((s.getV 0).toNat + nnn.toNat)))

end Sys2Proof.Machine
end

