-- ==== Sys2Proof/Machine/Index.lean ====
section
/-! DEFINITION. Index-register and memory instructions (43_index_memory.md). A memory fault is precise. -/

namespace Sys2Proof.Machine

/-- `ANNN`: `I <- zext_16(NNN)` (R210). -/
def execLdI (nnn : Addr12) (s : State) : Host.Outcome State Fault Refusal := .next (s.setI (immAddr nnn))

/-- `FX1E`: `I <- trunc16(I + V[X])`; no flag (R211). -/
def execAddIVX (x : Reg) (s : State) : Host.Outcome State Fault Refusal :=
  .next (s.setI (trunc16 (s.I.toNat + (s.getV x).toNat)))

/-- `FX29`: `I <- V[X] * 5`; `V[X]` is not reduced to its low nibble (R212). -/
def execLdFVX (x : Reg) (s : State) : Host.Outcome State Fault Refusal :=
  .next (s.setI (trunc16 ((s.getV x).toNat * 5)))

/-- `FX33`: the three decimal digits of `V[X]` to `memory[I..I+2]` (R213). -/
def execLdBVX (x : Reg) (s : State) : Host.Outcome State Fault Refusal :=
  finish s (writeBytes s (baseAddr s) (bcdDigits (s.getV x)))

/-- `FX55`: `V[0..X]` to `memory[I..I+X]`, then the optional advance of `I` (R214, R216). -/
def execStoreRegs (x : Reg) (s : State) : Host.Outcome State Fault Refusal :=
  finish s ((writeBytes s (baseAddr s) (regBlock s x)).map (fun t => advanceIndex t x))

/-- `FX65`: `memory[I..I+X]` to `V[0..X]`, then the optional advance of `I` (R215, R216). -/
def execLoadRegs (x : Reg) (s : State) : Host.Outcome State Fault Refusal :=
  finish s ((readBytes s (baseAddr s) (x.val + 1)).map (fun bytes => advanceIndex (setRegBlock s 0 bytes) x))

end Sys2Proof.Machine
end

