-- ==== Sys2Proof/Machine/KeysTimers.lean ====
section
/-! DEFINITION. Key and timer instructions (44_keys_timers.md). The Timer Step of the same cycle follows each handler. -/

namespace Sys2Proof.Machine

/-- `EX9E`: skip if `key[V[X]]` is pressed (R230, R236). -/
def execSkp (x : Reg) (s : State) : Host.Outcome State Fault Refusal :=
  finish s ((keyNamed s (s.getV x)).map (fun pressed => skipIf pressed s))

/-- `EXA1`: skip if `key[V[X]]` is not pressed (R231, R236). -/
def execSknp (x : Reg) (s : State) : Host.Outcome State Fault Refusal :=
  finish s ((keyNamed s (s.getV x)).map (fun pressed => skipIf (!pressed) s))

/-- `FX07`: `V[X] <- DT` (R232). -/
def execLdVXDT (x : Reg) (s : State) : Host.Outcome State Fault Refusal := .next (s.setV x s.DT)

/-- `FX0A`: the smallest pressed key to `V[X]`, or `pc <- trunc16(pc - 2)` when none is pressed (R233). -/
def execLdVXK (x : Reg) (s : State) : Host.Outcome State Fault Refusal :=
  match firstKey s with
  | some k => .next (s.setV x (trunc8 k.val))
  | none => .next (s.setPc (s.pc - 2))

/-- `FX15`: `DT <- V[X]` (R234). -/
def execLdDTVX (x : Reg) (s : State) : Host.Outcome State Fault Refusal := .next (s.setDT (s.getV x))

/-- `FX18`: `ST <- V[X]` (R235). -/
def execLdSTVX (x : Reg) (s : State) : Host.Outcome State Fault Refusal := .next (s.setST (s.getV x))

end Sys2Proof.Machine
end

