-- ==== Sys2Proof/Machine/Step.lean ====
section
/-! DEFINITION. One step is one instruction cycle (30_encoding.md R93). Every part is a definition of Cycle.lean or a
handler. -/

namespace Sys2Proof.Machine

/-- Decode and execute in a staged state; a word that selects no instruction runs the unimplemented handler (R94,
60_exceptions.md R254). -/
def dispatchWord (w : Word) (s : State) : Host.Outcome State Fault Refusal :=
  match decodeWord w with
  | some i => exec i s
  | none => .next (execUnimplemented s)

/-- `Cycle(rand8)` (R93). -/
def step (s : State) : Host.Outcome State Fault Refusal :=
  if s.fault.halted then .next (haltedStep s)
  else
    match fetchWord s with
    | .error r => .next (fetchFault r s)
    | .ok w => commit s (dispatchWord w (beginCycle w s))

/-- `s` with a table word stored where `step` fetches next (log 1). -/
def State.withFetchWord (s : State) (nbits w : Nat) : State := storeFetchWord s nbits w

end Sys2Proof.Machine
end

