-- ==== Sys2Proof/Machine/HostPort.lean ====
section
/-! DEFINITION. The operations the host and the collaborators have between cycles (10_state.md R37). -/

namespace Sys2Proof.Machine

/-- `reset`: every state element to its reset value (70_reset_and_hazards.md R300, R301). The parameters stay those of
the machine, and the random source, which is outside the block, is not rewound (log 9). -/
def State.hostReset (s : State) : State := { State.resetWith s.params with draws := s.draws }

/-- `load(bytes)` (20_memory.md R73 to R75): refused after the first step, `LoadError` for an empty or oversized
sequence, and otherwise the bytes verbatim from 0x200. -/
def State.load (bytes : List Byte) (s : State) : Host.Outcome State Fault Refusal :=
  if s.stepped then .refused .loadAfterStep
  else if bytes.length = 0 ∨ Config.progMaxLen < bytes.length then .fault .loadError
  else .next (s.writeAll Config.progBase bytes)

/-- `key_in`: the 16 key flags are written (60_exceptions.md R265). -/
def State.keyIn (keys : Vector Bool 16) (s : State) : State := { s with key := keys }

/-- One external key change; a code outside 0 to 15 is ignored (R265). -/
def State.keyEvent (code : Nat) (pressed : Bool) (s : State) : State :=
  if h : code < 16 then { s with key := s.key.set code pressed } else s

/-- `draw_ack`: the render collaborator has consumed the frame (R264). -/
def State.drawAck (s : State) : State := { s with drawFlag := false }

/-- `gfx_out[k]`, row-major (10_state.md R30, R37). -/
def State.gfxOut (s : State) (k : Nat) : Bool := cellLit s.gfx k

/-- `draw_flag_out` (R37). -/
def State.drawFlagOut (s : State) : Bool := s.drawFlag

/-- `sound_level_out` (R37). -/
def State.soundLevelOut (s : State) : Byte := s.ST

/-- `status_out` (R37). -/
def State.statusOut (s : State) : FaultRecord := s.fault

/-- The event output of the most recent step (60_exceptions.md R268). -/
def State.stepOut (s : State) : List Event := s.events

end Sys2Proof.Machine
end

