-- ==== Sys2Proof/Safety.lean ====
section
/-! DEFINITION. What claims are stated in: the invariant of a machine state, the fault table, what may write what, and the
frames that say what an instruction leaves unchanged. -/

namespace Sys2Proof.Machine

/-! ### The invariant -/

/-- The invariant every step keeps. -/
structure Inv (s : State) : Prop where
  /-- Memory is in its canonical form. -/
  memoryWf : Memory.wf s.params.font s.mem = true
  /-- "Only a fault writes the record" (10_state.md R34): a running block's record is clear. -/
  recordClear : s.fault.halted = false → s.fault = FaultRecord.clear
  /-- A halted block's cause is one of the codes 1 to 6 (60_exceptions.md R250). -/
  recordCause : s.fault.halted = true → ∃ c : Cause, s.fault.cause = c.code
  /-- "`pc` holds the address of the faulting instruction" (R252). -/
  recordPc : s.fault.halted = true → s.fault.pc = s.pc
  /-- Only a step halts the block (the model's own field, log 4). -/
  haltedStepped : s.fault.halted = true → s.stepped = true

/-! ### Frames -/

/-- Every byte of memory reads as before. -/
def SameMemory (s t : State) : Prop := ∀ a, t.readByte a = s.readByte a

/-- Nothing but general registers changed, and of those only the ones listed. -/
def OnlyRegs (ws : List Reg) (s t : State) : Prop :=
  t = { s with V := t.V } ∧ (∀ r, r ∉ ws → t.getV r = s.getV r) ∧ SameMemory s t

/-- Nothing but `pc` changed. -/
def OnlyPc (s t : State) : Prop := t = { s with pc := t.pc } ∧ SameMemory s t

/-- Nothing but `I` changed. -/
def OnlyIndex (s t : State) : Prop := t = { s with I := t.I } ∧ SameMemory s t

/-- Nothing but memory changed, and of memory only the `n` bytes from `a`. -/
def OnlyBytes (a n : Nat) (s t : State) : Prop :=
  t = { s with mem := t.mem } ∧ ∀ b, ¬ (a ≤ b ∧ b < a + n) → t.readByte b = s.readByte b

/-- Nothing but memory and `I` changed, and of memory only the `n` bytes from `a`. -/
def OnlyBytesAndIndex (a n : Nat) (s t : State) : Prop :=
  t = { s with mem := t.mem, I := t.I } ∧ ∀ b, ¬ (a ≤ b ∧ b < a + n) → t.readByte b = s.readByte b

/-- The instruction raises: the record holds the code and the info, `fault_pc` is the address it was fetched from, and no
other state element changes (60_exceptions.md R251). What the model's field `events` then holds is left open. -/
def Raises (i : Instr) (s : State) (code : BitVec 3) (info : BitVec 17) : Prop :=
  ∃ t, exec i s = .next t ∧
    t = { s with fault := { halted := true, cause := code, pc := s.pc - 2, info := info }, events := t.events }

/-! ### Fetching and decoding -/

/-- Every word with these masked bits decodes to the instruction `f` gives it. -/
def DecodesAs (mask pat : Word) (f : Word → Instr) : Prop := ∀ w, w &&& mask = pat → decodeWord w = some (f w)

/-- The block is running and the two bytes at `pc` form the word `w`, the first one high (20_memory.md R64). -/
def FetchesWord (s : State) (w : Word) : Prop :=
  s.fault.halted = false ∧ s.pc.toNat + 1 < 4096 ∧
    wordOfBytes (s.readByte s.pc.toNat) (s.readByte (s.pc.toNat + 1)) = w

/-! ### The fault table (60_exceptions.md R250) -/

/-- The raise of a block access of `n` bytes at `I` that leaves memory: the first address out of range. -/
def rangeRaise (c : Cause) (s : State) (n : Nat) : Option Raise :=
  if 0 < n ∧ 4096 < s.I.toNat + n then some ⟨c, BitVec.ofNat 17 (max s.I.toNat 4096)⟩ else none

/-- What an instruction raises in a state, by the table of R250. -/
def raiseOf (i : Instr) (s : State) : Option Raise :=
  match i with
  | .call _ => if s.sp = 16 then some ⟨.stackOverflow, 16⟩ else none
  | .ret => if s.sp = 0 then some ⟨.stackUnderflow, 0⟩ else none
  | .drw _ _ n => rangeRaise .readOutOfRange s n
  | .loadRegs x => rangeRaise .readOutOfRange s (x.val + 1)
  | .ldBVX _ => rangeRaise .writeOutOfRange s 3
  | .storeRegs x => rangeRaise .writeOutOfRange s (x.val + 1)
  | .skp x | .sknp x =>
    if 15 < (s.getV x).toNat then some ⟨.keyIndexOutOfRange, BitVec.ofNat 17 (s.getV x).toNat⟩ else none
  | .cls | .jp _ | .ldI _ | .jpV0 _ => none
  | .seNN _ _ | .sneNN _ _ | .ldNN _ _ | .addNN _ _ | .rnd _ _ => none
  | .seVY _ _ | .sneVY _ _ | .ldVY _ _ | .orVY _ _ | .andVY _ _ | .xorVY _ _ => none
  | .addVY _ _ | .subVY _ _ | .subnVY _ _ | .shr _ | .shl _ => none
  | .ldVXDT _ | .ldVXK _ | .ldDTVX _ | .ldSTVX _ | .addIVX _ | .ldFVX _ => none

/-! ### What may write what -/

/-- The registers an instruction may write: its destination and the `V[F]` side effects (10_state.md R22, R23). -/
def mayWriteReg (i : Instr) (r : Reg) : Bool :=
  match i with
  | .ldNN x _ | .addNN x _ | .rnd x _ | .ldVXDT x | .ldVXK x => r == x
  | .ldVY x _ | .orVY x _ | .andVY x _ | .xorVY x _ => r == x
  | .addVY x _ | .subVY x _ | .subnVY x _ | .shr x | .shl x => r == x || r == VF
  | .drw _ _ _ => r == VF
  | .loadRegs x => decide (r ≤ x)
  | .cls | .ret | .jp _ | .call _ | .ldI _ | .jpV0 _ => false
  | .seNN _ _ | .sneNN _ _ | .seVY _ _ | .sneVY _ _ | .skp _ | .sknp _ => false
  | .ldDTVX _ | .ldSTVX _ | .addIVX _ | .ldFVX _ | .ldBVX _ | .storeRegs _ => false

/-- The instructions that may write `pc` beyond the advance (10_state.md R25). -/
def mayWritePc (i : Instr) : Bool :=
  match i with
  | .ret | .jp _ | .call _ | .jpV0 _ | .seNN _ _ | .sneNN _ _ | .seVY _ _ | .sneVY _ _ => true
  | .skp _ | .sknp _ | .ldVXK _ => true
  | .cls | .ldI _ | .ldNN _ _ | .addNN _ _ | .rnd _ _ => false
  | .ldVY _ _ | .orVY _ _ | .andVY _ _ | .xorVY _ _ | .addVY _ _ | .subVY _ _ | .subnVY _ _ => false
  | .shr _ | .shl _ | .drw _ _ _ | .ldVXDT _ | .ldDTVX _ | .ldSTVX _ => false
  | .addIVX _ | .ldFVX _ | .ldBVX _ | .storeRegs _ | .loadRegs _ => false

/-! ### Sprites -/

/-- Some lit sprite pixel of DXYN falls on cell `k`: row `r` comes from `memory[I + r]`, bit 7 is column 0, and column
and row wrap modulo 64 and 32 (40_display.md R121, R122, R124). -/
def Covers (s : State) (x y : Reg) (n k : Nat) : Prop :=
  ∃ r c, r < n ∧ c < 8 ∧ (s.readByte (s.I.toNat + r)).getLsbD (7 - c) = true ∧
    k = ((s.getV y).toNat + r) % 32 * 64 + ((s.getV x).toNat + c) % 64

end Sys2Proof.Machine
end

