-- ==== Sys2Proof/Certificates/Slice0/Obligations.lean ====
section
/-! DEFINITION. The statements for the provers. Each docstring names the rule of spec/ it formalises. In a statement about
`exec i s`, `s` is the state a handler gets: the word is latched and `pc` is already the address after it. -/

open Sys2Proof Sys2Proof.Machine

/-! ### Register and ALU instructions (42_alu.md) -/

/-- R170: 6XNN writes NN to `V[X]`, `X = F` included, and nothing else. -/
def Obligations.LoadImmediateWritesRegister : Prop :=
  DecodesAs 0xF000 0x6000 (fun w => .ldNN (fieldX w) (fieldNN w)) ∧
  ∀ (x : Reg) (nn : Byte) (s : State), ∃ t, exec (.ldNN x nn) s = .next t ∧ t.getV x = nn ∧ OnlyRegs [x] s t

/-- R171: 7XNN adds modulo 256 and records no carry. -/
def Obligations.AddImmediateWrapsWithoutFlag : Prop :=
  DecodesAs 0xF000 0x7000 (fun w => .addNN (fieldX w) (fieldNN w)) ∧
  ∀ (x : Reg) (nn : Byte) (s : State), ∃ t, exec (.addNN x nn) s = .next t ∧
    (t.getV x).toNat = ((s.getV x).toNat + nn.toNat) % 256 ∧ OnlyRegs [x] s t

/-- R172: 8XY0 copies `V[Y]` to `V[X]`. -/
def Obligations.CopyRegisterWritesRegister : Prop :=
  DecodesAs 0xF00F 0x8000 (fun w => .ldVY (fieldX w) (fieldY w)) ∧
  ∀ (x y : Reg) (s : State), ∃ t, exec (.ldVY x y) s = .next t ∧ t.getV x = s.getV y ∧ OnlyRegs [x] s t

/-- 42_alu.md R173, R174, R175: the logic operations, bit by bit; `V[F]` is unchanged unless `X = F`, which is the
spec's own decision D9 (log 10). -/
def Obligations.LogicOperationsLeaveFlag : Prop :=
  DecodesAs 0xF00F 0x8001 (fun w => .orVY (fieldX w) (fieldY w)) ∧
  DecodesAs 0xF00F 0x8002 (fun w => .andVY (fieldX w) (fieldY w)) ∧
  DecodesAs 0xF00F 0x8003 (fun w => .xorVY (fieldX w) (fieldY w)) ∧
  ∀ (x y : Reg) (s : State),
    (∃ t, exec (.orVY x y) s = .next t ∧ OnlyRegs [x] s t ∧
      ∀ b, (t.getV x).getLsbD b = ((s.getV x).getLsbD b || (s.getV y).getLsbD b)) ∧
    (∃ t, exec (.andVY x y) s = .next t ∧ OnlyRegs [x] s t ∧
      ∀ b, (t.getV x).getLsbD b = ((s.getV x).getLsbD b && (s.getV y).getLsbD b)) ∧
    (∃ t, exec (.xorVY x y) s = .next t ∧ OnlyRegs [x] s t ∧
      ∀ b, (t.getV x).getLsbD b = ((s.getV x).getLsbD b ^^ (s.getV y).getLsbD b))

/-- 42_alu.md R176: 8XY4 adds modulo 256, the carry to `V[F]`; when `X = F` the carry is what remains (R183), which is the
spec's own decision D10 (log 10). -/
def Obligations.AddRegistersSetsCarry : Prop :=
  DecodesAs 0xF00F 0x8004 (fun w => .addVY (fieldX w) (fieldY w)) ∧
  ∀ (x y : Reg) (s : State), ∃ t, exec (.addVY x y) s = .next t ∧
    (x ≠ VF → (t.getV x).toNat = ((s.getV x).toNat + (s.getV y).toNat) % 256) ∧
    (t.getV VF).toNat = (if (s.getV x).toNat + (s.getV y).toNat > 255 then 1 else 0) ∧
    OnlyRegs [x, VF] s t

/-- 42_alu.md R177: 8XY5 subtracts modulo 256, the no-borrow flag to `V[F]`; when `X = F` the flag is what remains (R183),
which is the spec's own decision D10 (log 10). -/
def Obligations.SubtractSetsNoBorrow : Prop :=
  DecodesAs 0xF00F 0x8005 (fun w => .subVY (fieldX w) (fieldY w)) ∧
  ∀ (x y : Reg) (s : State), ∃ t, exec (.subVY x y) s = .next t ∧
    (x ≠ VF → (t.getV x).toNat = ((s.getV x).toNat + 256 - (s.getV y).toNat) % 256) ∧
    (t.getV VF).toNat = (if (s.getV x).toNat ≥ (s.getV y).toNat then 1 else 0) ∧
    OnlyRegs [x, VF] s t

/-- 42_alu.md R179: 8XY7 subtracts the other way round, with the order of decision D10 (log 10). -/
def Obligations.ReverseSubtractSetsNoBorrow : Prop :=
  DecodesAs 0xF00F 0x8007 (fun w => .subnVY (fieldX w) (fieldY w)) ∧
  ∀ (x y : Reg) (s : State), ∃ t, exec (.subnVY x y) s = .next t ∧
    (x ≠ VF → (t.getV x).toNat = ((s.getV y).toNat + 256 - (s.getV x).toNat) % 256) ∧
    (t.getV VF).toNat = (if (s.getV y).toNat ≥ (s.getV x).toNat then 1 else 0) ∧
    OnlyRegs [x, VF] s t

/-- 42_alu.md R178: 8XY6 moves bit 0 to `V[F]`, then halves `V[X]`; `V[Y]` is not read. With `X = F` the flag just
written is halved, so `V[F]` ends 0: the spec's own decision D11 (log 10). -/
def Obligations.ShiftRightFlagsThenHalves : Prop :=
  DecodesAs 0xF00F 0x8006 (fun w => .shr (fieldX w)) ∧
  ∀ (x : Reg) (s : State), ∃ t, exec (.shr x) s = .next t ∧ OnlyRegs [x, VF] s t ∧
    (x ≠ VF → (t.getV x).toNat = (s.getV x).toNat / 2 ∧ (t.getV VF).toNat = (s.getV x).toNat % 2) ∧
    (x = VF → t.getV VF = 0)

/-- 42_alu.md R180: 8XYE moves bit 7 to `V[F]`, then doubles `V[X]`; `V[Y]` is not read. With `X = F` the flag just
written is doubled, so `V[F]` ends as twice the old bit 7: the spec's own decision D11 (log 10). -/
def Obligations.ShiftLeftFlagsThenDoubles : Prop :=
  DecodesAs 0xF00F 0x800E (fun w => .shl (fieldX w)) ∧
  ∀ (x : Reg) (s : State), ∃ t, exec (.shl x) s = .next t ∧ OnlyRegs [x, VF] s t ∧
    (x ≠ VF → (t.getV x).toNat = (s.getV x).toNat * 2 % 256 ∧ (t.getV VF).toNat = (s.getV x).toNat / 128) ∧
    (x = VF → (t.getV VF).toNat = 2 * ((s.getV VF).toNat / 128))

/-- 42_alu.md, CXNN: `V[X]` is the free byte under the mask NN, and no other instruction takes a random byte. The counter
`draws` that indexes the free value is the model's choice (log 3). -/
def Obligations.RandomByteUnderMask : Prop :=
  DecodesAs 0xF000 0xC000 (fun w => .rnd (fieldX w) (fieldNN w)) ∧
  (∀ (x : Reg) (nn : Byte) (s : State), ∃ t, exec (.rnd x nn) s = .next t ∧
    t.getV x = Config.rand8 s.draws &&& nn ∧ (∀ r, r ≠ x → t.getV r = s.getV r) ∧
    t = { s with V := t.V, draws := s.draws + 1 } ∧ SameMemory s t) ∧
  ∀ (i : Instr) (s t : State), exec i s = .next t → t.draws ≠ s.draws → ∃ x nn, i = .rnd x nn

/-! ### Display instructions (40_display.md) -/

/-- R120: 00E0 clears all 2048 cells and sets the draw flag. -/
def Obligations.ClearScreenZeroesEveryCell : Prop :=
  DecodesAs 0xF0FF 0x00E0 (fun _ => .cls) ∧
  ∀ s : State, ∃ t, exec .cls s = .next t ∧ (∀ k, k < 2048 → cellLit t.gfx k = false) ∧ t.drawFlag = true ∧
    t = { s with gfx := t.gfx, drawFlag := t.drawFlag } ∧ SameMemory s t

/-- 40_display.md R121 to R124: DXYN inverts exactly the cells some lit sprite pixel falls on, writes the collision to
`V[F]` and always sets the draw flag. The rows and both coordinates are those from before any write. When a row lies
outside memory it raises `ReadOutOfRange` at the first such address. The bit order, the 0 of `V[F]` and the fault are
the spec's own decisions D12 (log 10) and D2. -/
def Obligations.DrawInvertsCoveredCells : Prop :=
  DecodesAs 0xF000 0xD000 (fun w => .drw (fieldX w) (fieldY w) (fieldN w).toNat) ∧
  ∀ (x y : Reg) (n : Nat) (s : State), n ≤ 15 →
    (n = 0 ∨ s.I.toNat + n ≤ 4096 → ∃ t, exec (.drw x y n) s = .next t ∧
      (∀ k, k < 2048 → (Covers s x y n k → cellLit t.gfx k = !cellLit s.gfx k) ∧
        (¬ Covers s x y n k → cellLit t.gfx k = cellLit s.gfx k)) ∧
      ((∃ k, k < 2048 ∧ Covers s x y n k ∧ cellLit s.gfx k = true) → t.getV VF = 1) ∧
      ((¬ ∃ k, k < 2048 ∧ Covers s x y n k ∧ cellLit s.gfx k = true) → t.getV VF = 0) ∧
      t.drawFlag = true ∧ (∀ r, r ≠ VF → t.getV r = s.getV r) ∧
      t = { s with gfx := t.gfx, V := t.V, drawFlag := t.drawFlag } ∧ SameMemory s t) ∧
    (0 < n → 4096 < s.I.toNat + n → Raises (.drw x y n) s 4 (BitVec.ofNat 17 (max s.I.toNat 4096)))

/-- 95_test_vectors.md L1-6: drawing the same sprite twice at the same place restores the framebuffer, and the second draw
collides exactly when it clears a cell the first one set. The premise that `V[X]` and `V[Y]` hold the same coordinates
fails only for `X = F` or `Y = F`, where the first draw has overwritten the coordinate. -/
def Obligations.DrawTwiceRestoresScreen : Prop :=
  ∀ (x y : Reg) (n : Nat) (s : State), n ≤ 15 → (n = 0 ∨ s.I.toNat + n ≤ 4096) →
    ∃ t, exec (.drw x y n) s = .next t ∧
      (t.getV x = s.getV x → t.getV y = s.getV y →
        ∃ u, exec (.drw x y n) t = .next u ∧ u.gfx = s.gfx ∧
          (u.getV VF = 1 ↔ ∃ k, k < 2048 ∧ Covers s x y n k ∧ cellLit s.gfx k = false))

/-! ### Control transfer (41_flow.md) -/

/-- R141: 1NNN. -/
def Obligations.JumpGoesToImmediate : Prop :=
  DecodesAs 0xF000 0x1000 (fun w => .jp (fieldNNN w)) ∧
  ∀ (nnn : Addr12) (s : State), ∃ t, exec (.jp nnn) s = .next t ∧ t.pc.toNat = nnn.toNat ∧ OnlyPc s t

/-- 41_flow.md R147: BNNN adds `V[0]`, whatever `op[11:8]` holds, and no truncation occurs (the spec's own decision D2).
-/
def Obligations.JumpOffsetAddsV0 : Prop :=
  DecodesAs 0xF000 0xB000 (fun w => .jpV0 (fieldNNN w)) ∧
  ∀ (nnn : Addr12) (s : State), ∃ t, exec (.jpV0 nnn) s = .next t ∧
    t.pc.toNat = (s.getV 0).toNat + nnn.toNat ∧ OnlyPc s t

/-- R143, R144: the skips that compare with NN. -/
def Obligations.SkipImmediateComparesRegister : Prop :=
  DecodesAs 0xF000 0x3000 (fun w => .seNN (fieldX w) (fieldNN w)) ∧
  DecodesAs 0xF000 0x4000 (fun w => .sneNN (fieldX w) (fieldNN w)) ∧
  ∀ (x : Reg) (nn : Byte) (s : State),
    (∃ t, exec (.seNN x nn) s = .next t ∧ OnlyPc s t ∧
      (s.getV x = nn → t.pc.toNat = (s.pc.toNat + 2) % 65536) ∧ (s.getV x ≠ nn → t.pc = s.pc)) ∧
    (∃ t, exec (.sneNN x nn) s = .next t ∧ OnlyPc s t ∧
      (s.getV x ≠ nn → t.pc.toNat = (s.pc.toNat + 2) % 65536) ∧ (s.getV x = nn → t.pc = s.pc))

/-- 41_flow.md R145, R146: the skips that compare two registers; `op[3:0]` is not examined (R99), which is the spec's own
decision D17 (log 10). -/
def Obligations.SkipRegisterComparesRegisters : Prop :=
  DecodesAs 0xF000 0x5000 (fun w => .seVY (fieldX w) (fieldY w)) ∧
  DecodesAs 0xF000 0x9000 (fun w => .sneVY (fieldX w) (fieldY w)) ∧
  ∀ (x y : Reg) (s : State),
    (∃ t, exec (.seVY x y) s = .next t ∧ OnlyPc s t ∧
      (s.getV x = s.getV y → t.pc.toNat = (s.pc.toNat + 2) % 65536) ∧ (s.getV x ≠ s.getV y → t.pc = s.pc)) ∧
    (∃ t, exec (.sneVY x y) s = .next t ∧ OnlyPc s t ∧
      (s.getV x ≠ s.getV y → t.pc.toNat = (s.pc.toNat + 2) % 65536) ∧ (s.getV x = s.getV y → t.pc = s.pc))

/-- 41_flow.md R142: 2NNN pushes the address of the following word and jumps; with 16 live entries it raises
`StackOverflow`, which is the spec's own decision D5. -/
def Obligations.CallPushesReturnAddress : Prop :=
  DecodesAs 0xF000 0x2000 (fun w => .call (fieldNNN w)) ∧
  ∀ (nnn : Addr12) (s : State),
    (∀ h : s.sp.val < 16, ∃ t, exec (.call nnn) s = .next t ∧ t.stack[s.sp.val] = s.pc ∧
      (∀ j (hj : j < 16), j ≠ s.sp.val → t.stack[j] = s.stack[j]) ∧ t.sp.val = s.sp.val + 1 ∧
      t.pc.toNat = nnn.toNat ∧ t = { s with stack := t.stack, sp := t.sp, pc := t.pc } ∧ SameMemory s t) ∧
    (s.sp.val = 16 → Raises (.call nnn) s 1 16)

/-- 41_flow.md R140: 00EE pops the return address and leaves the entry as it is; with no live entry it raises
`StackUnderflow`, which is the spec's own decision D6. -/
def Obligations.ReturnPopsAddress : Prop :=
  DecodesAs 0xF0FF 0x00EE (fun _ => .ret) ∧
  ∀ s : State,
    (∀ h : 0 < s.sp.val, ∃ t, exec .ret s = .next t ∧ t.sp.val = s.sp.val - 1 ∧
      t.pc = s.stack[s.sp.val - 1]'(by have := s.sp.isLt; omega) ∧
      t = { s with sp := t.sp, pc := t.pc } ∧ SameMemory s t) ∧
    (s.sp.val = 0 → Raises .ret s 2 0)

/-- 95_test_vectors.md L1-7 in the reading of 90_conflicts.md C6: a return, wherever it stands, resumes at the `pc` the
CALL's handler began with, at the same depth. The popped entry keeps the return address, and everything else, every other
stack entry included, is as it was. -/
def Obligations.CallThenReturnRoundTrip : Prop :=
  ∀ (nnn : Addr12) (p : Word) (s : State) (h : s.sp.val < 16),
    ∃ t u, exec (.call nnn) s = .next t ∧ exec .ret { t with pc := p } = .next u ∧
      u.pc = s.pc ∧ u.sp = s.sp ∧ u.stack[s.sp.val] = s.pc ∧
      (∀ j (hj : j < 16), j ≠ s.sp.val → u.stack[j] = s.stack[j]) ∧ u = { s with stack := u.stack }

/-! ### Index register and memory (43_index_memory.md) -/

/-- R210: ANNN. -/
def Obligations.LoadIndexSetsAddress : Prop :=
  DecodesAs 0xF000 0xA000 (fun w => .ldI (fieldNNN w)) ∧
  ∀ (nnn : Addr12) (s : State), ∃ t, exec (.ldI nnn) s = .next t ∧ t.I.toNat = nnn.toNat ∧ OnlyIndex s t

/-- 43_index_memory.md R211: FX1E adds modulo 2^16 (the spec's own decision D3) and leaves `V[F]` alone. -/
def Obligations.AddIndexWrapsWithoutFlag : Prop :=
  DecodesAs 0xF0FF 0xF01E (fun w => .addIVX (fieldX w)) ∧
  ∀ (x : Reg) (s : State), ∃ t, exec (.addIVX x) s = .next t ∧
    t.I.toNat = (s.I.toNat + (s.getV x).toNat) % 65536 ∧ OnlyIndex s t

/-- R212: FX29 multiplies by 5 without masking `V[X]` and without truncation. -/
def Obligations.FontAddressIsFiveTimesDigit : Prop :=
  DecodesAs 0xF0FF 0xF029 (fun w => .ldFVX (fieldX w)) ∧
  ∀ (x : Reg) (s : State), ∃ t, exec (.ldFVX x) s = .next t ∧
    t.I.toNat = (s.getV x).toNat * 5 ∧ OnlyIndex s t

/-- 43_index_memory.md R213: FX33 stores the three decimal digits at `I`, `I + 1`, `I + 2` and nothing else, or raises
`WriteOutOfRange` at the first address out of range (the spec's own decision D2). Reading back what was stored needs
memory in its canonical form, an invariant (`Obligations.StepKeepsInvariant`). -/
def Obligations.BcdStoresDecimalDigits : Prop :=
  DecodesAs 0xF0FF 0xF033 (fun w => .ldBVX (fieldX w)) ∧
  ∀ (x : Reg) (s : State), Memory.wf s.params.font s.mem = true →
    (s.I.toNat + 2 < 4096 → ∃ t, exec (.ldBVX x) s = .next t ∧
      (t.readByte s.I.toNat).toNat = (s.getV x).toNat / 100 ∧
      (t.readByte (s.I.toNat + 1)).toNat = (s.getV x).toNat / 10 % 10 ∧
      (t.readByte (s.I.toNat + 2)).toNat = (s.getV x).toNat % 10 ∧
      OnlyBytes s.I.toNat 3 s t) ∧
    (4096 ≤ s.I.toNat + 2 → Raises (.ldBVX x) s 5 (BitVec.ofNat 17 (max s.I.toNat 4096)))

/-- 43_index_memory.md R214: FX55 stores `V[0]` to `V[X]` at `I` to `I + X`, and advances `I` by X + 1 only under the
parameter; out of range it raises `WriteOutOfRange` and neither writes a byte nor moves `I` (the spec's own decisions D2
and D14). -/
def Obligations.StoreBlockWritesRegisters : Prop :=
  DecodesAs 0xF0FF 0xF055 (fun w => .storeRegs (fieldX w)) ∧
  ∀ (x : Reg) (s : State), Memory.wf s.params.font s.mem = true →
    (s.I.toNat + x.val < 4096 → ∃ t, exec (.storeRegs x) s = .next t ∧
      (∀ k : Reg, k ≤ x → t.readByte (s.I.toNat + k.val) = s.getV k) ∧
      (s.params.indexIncrementOnBlock = false → t.I = s.I) ∧
      (s.params.indexIncrementOnBlock = true → t.I.toNat = (s.I.toNat + x.val + 1) % 65536) ∧
      OnlyBytesAndIndex s.I.toNat (x.val + 1) s t) ∧
    (4096 ≤ s.I.toNat + x.val → Raises (.storeRegs x) s 5 (BitVec.ofNat 17 (max s.I.toNat 4096)))

/-- 43_index_memory.md R215: FX65 loads `V[0]` to `V[X]` from `I` to `I + X`, registers above X unchanged, and advances
`I` by X + 1 only under the parameter; out of range it raises `ReadOutOfRange` and changes no register and not `I` (the
spec's own decisions D2 and D14). -/
def Obligations.LoadBlockReadsRegisters : Prop :=
  DecodesAs 0xF0FF 0xF065 (fun w => .loadRegs (fieldX w)) ∧
  ∀ (x : Reg) (s : State),
    (s.I.toNat + x.val < 4096 → ∃ t, exec (.loadRegs x) s = .next t ∧
      (∀ k : Reg, k ≤ x → t.getV k = s.readByte (s.I.toNat + k.val)) ∧
      (∀ k : Reg, x < k → t.getV k = s.getV k) ∧
      (s.params.indexIncrementOnBlock = false → t.I = s.I) ∧
      (s.params.indexIncrementOnBlock = true → t.I.toNat = (s.I.toNat + x.val + 1) % 65536) ∧
      t = { s with V := t.V, I := t.I } ∧ SameMemory s t) ∧
    (4096 ≤ s.I.toNat + x.val → Raises (.loadRegs x) s 4 (BitVec.ofNat 17 (max s.I.toNat 4096)))

/-! ### Keys and timers (44_keys_timers.md) -/

/-- 44_keys_timers.md R230, R231, R236: the key skips test the level of `key[V[X]]`; an index above 15 raises
`KeyIndexOutOfRange`, which is the spec's own decision D13. -/
def Obligations.SkipOnKeyTestsLevel : Prop :=
  DecodesAs 0xF0FF 0xE09E (fun w => .skp (fieldX w)) ∧
  DecodesAs 0xF0FF 0xE0A1 (fun w => .sknp (fieldX w)) ∧
  ∀ (x : Reg) (s : State),
    (∀ h : (s.getV x).toNat < 16,
      (∃ t, exec (.skp x) s = .next t ∧ OnlyPc s t ∧
        (s.key[(s.getV x).toNat] = true → t.pc.toNat = (s.pc.toNat + 2) % 65536) ∧
        (s.key[(s.getV x).toNat] = false → t.pc = s.pc)) ∧
      (∃ t, exec (.sknp x) s = .next t ∧ OnlyPc s t ∧
        (s.key[(s.getV x).toNat] = false → t.pc.toNat = (s.pc.toNat + 2) % 65536) ∧
        (s.key[(s.getV x).toNat] = true → t.pc = s.pc))) ∧
    (15 < (s.getV x).toNat → Raises (.skp x) s 6 (BitVec.ofNat 17 (s.getV x).toNat) ∧
      Raises (.sknp x) s 6 (BitVec.ofNat 17 (s.getV x).toNat))

/-- R232: FX07 reads `DT` from before this cycle's Timer Step. -/
def Obligations.ReadDelayTimerBeforeCount : Prop :=
  DecodesAs 0xF0FF 0xF007 (fun w => .ldVXDT (fieldX w)) ∧
  (∀ (x : Reg) (s : State), ∃ t, exec (.ldVXDT x) s = .next t ∧ t.getV x = s.DT ∧ OnlyRegs [x] s t) ∧
  ∀ (x : Reg) (w : Word) (s : State), FetchesWord s w → decodeWord w = some (.ldVXDT x) →
    ∃ t, step s = .next t ∧ t.getV x = s.DT ∧ t.DT.toNat = s.DT.toNat - 1

/-- R233: FX0A takes the lowest pressed key; with none pressed it rewinds `pc`, so the cycle ends where it began, with the
timers counted down. -/
def Obligations.WaitForKeyTakesLowestOrRewinds : Prop :=
  DecodesAs 0xF0FF 0xF00A (fun w => .ldVXK (fieldX w)) ∧
  (∀ (x : Reg) (s : State),
    (∀ k : Reg, s.key[k.val] = true → (∀ j : Reg, j < k → s.key[j.val] = false) →
      ∃ t, exec (.ldVXK x) s = .next t ∧ (t.getV x).toNat = k.val ∧ OnlyRegs [x] s t) ∧
    ((∀ k : Reg, s.key[k.val] = false) →
      ∃ t, exec (.ldVXK x) s = .next t ∧ (t.pc.toNat + 2) % 65536 = s.pc.toNat ∧ OnlyPc s t)) ∧
  ∀ (x : Reg) (w : Word) (s : State), FetchesWord s w → decodeWord w = some (.ldVXK x) →
    (∀ k : Reg, s.key[k.val] = false) →
    ∃ t, step s = .next t ∧ t.pc = s.pc ∧ t.V = s.V ∧ t.DT.toNat = s.DT.toNat - 1 ∧ t.ST.toNat = s.ST.toNat - 1

/-- 44_keys_timers.md R234: FX15 sets `DT`, and the same cycle's Timer Step already takes one off, as the spec infers from
R93. -/
def Obligations.SetDelayTimerLosesOneCount : Prop :=
  DecodesAs 0xF0FF 0xF015 (fun w => .ldDTVX (fieldX w)) ∧
  (∀ (x : Reg) (s : State), ∃ t, exec (.ldDTVX x) s = .next t ∧ t.DT = s.getV x ∧
    t = { s with DT := t.DT } ∧ SameMemory s t) ∧
  ∀ (x : Reg) (w : Word) (s : State), FetchesWord s w → decodeWord w = some (.ldDTVX x) →
    ∃ t, step s = .next t ∧ t.DT.toNat = (s.getV x).toNat - 1

/-- 44_keys_timers.md, FX18: it sets `ST`, the same cycle's Timer Step takes one off, and `ToneEnd` is emitted in this
cycle exactly when the value set is 1, whatever `ST` was before. The event is read off the model's field `events` (log
2). -/
def Obligations.SetSoundTimerLosesOneCount : Prop :=
  DecodesAs 0xF0FF 0xF018 (fun w => .ldSTVX (fieldX w)) ∧
  (∀ (x : Reg) (s : State), ∃ t, exec (.ldSTVX x) s = .next t ∧ t.ST = s.getV x ∧
    t = { s with ST := t.ST } ∧ SameMemory s t) ∧
  ∀ (x : Reg) (w : Word) (s : State), FetchesWord s w → decodeWord w = some (.ldSTVX x) →
    ∃ t, step s = .next t ∧ t.ST.toNat = (s.getV x).toNat - 1 ∧
      t.events = (if (s.getV x).toNat = 1 then [.toneEnd] else [])

/-! ### Reset, load and the host's ports (70_reset_and_hazards.md, 20_memory.md) -/

/-- R300: every state element at its reset value, for every `FONT`. -/
def Obligations.ResetPutsEveryElement : Prop :=
  ∀ p : Config.Params,
    (∀ a (h : a < 80), (State.resetWith p).readByte a = p.font[a]) ∧
    (∀ a, 80 ≤ a → (State.resetWith p).readByte a = 0) ∧
    (∀ r, (State.resetWith p).getV r = 0) ∧ (State.resetWith p).I = 0 ∧ (State.resetWith p).pc = 0x200 ∧
    (∀ j (h : j < 16), (State.resetWith p).stack[j] = 0) ∧ (State.resetWith p).sp = 0 ∧
    (State.resetWith p).DT = 0 ∧ (State.resetWith p).ST = 0 ∧ (∀ k, cellLit (State.resetWith p).gfx k = false) ∧
    (∀ k (h : k < 16), (State.resetWith p).key[k] = false) ∧ (State.resetWith p).drawFlag = true ∧
    (State.resetWith p).opcode = 0 ∧
    (State.resetWith p).fault = { halted := false, cause := 0, pc := 0, info := 0 }

/-- 20_memory.md R73, R74: `load` on a block that has not stepped succeeds exactly for 1 to 3584 bytes, writes them
verbatim from 0x200 and changes nothing else; otherwise it is `LoadError`. The field `stepped` and the form of
`LoadError` are the model's choices (logs 4 and 12). -/
def Obligations.LoadWritesProgramVerbatim : Prop :=
  ∀ (bytes : List Byte) (s : State), s.stepped = false → Memory.wf s.params.font s.mem = true →
    (0 < bytes.length → bytes.length ≤ 3584 → ∃ t, s.load bytes = .next t ∧
      (∀ k (h : k < bytes.length), t.readByte (0x200 + k) = bytes[k]) ∧
      (∀ a, ¬ (0x200 ≤ a ∧ a < 0x200 + bytes.length) → t.readByte a = s.readByte a) ∧
      t = { s with mem := t.mem }) ∧
    (bytes.length = 0 ∨ 3584 < bytes.length → s.load bytes = .fault .loadError)

/-- 20_memory.md R75 with the model's field `stepped` (log 4): after any step of a running block, `load` is refused until
reset. That the refusal comes before the length is looked at, so that a sequence R74 calls a `LoadError` is refused too, is
the model's choice (log 12). -/
def Obligations.LoadAfterStepIsRefused : Prop :=
  ∀ (bytes : List Byte) (s t : State), s.fault.halted = false → step s = .next t →
    t.load bytes = .refused .loadAfterStep ∧ t.hostReset.load bytes ≠ .refused .loadAfterStep

/-- R301 and the input ports of 10_state.md R37: reset leaves the halted state, restores every element and keeps the
parameters; `draw_ack` clears the draw flag alone; `key_in` writes all 16 key flags and nothing else (60_exceptions.md
R265); a single key change touches the named key alone and a code above 15 nothing. That the ports act between cycles is how
the model reads R5 and R37 (log 15), with the ports as functions outside `step`. The last clause states it of what they
alone do: no step writes a key (R31), clears the draw flag (R32), leaves the halted state (60_exceptions.md R253) or changes
a parameter (R36, log 5). That reset does not rewind the random draws is the model's choice (log 9). -/
def Obligations.HostPortsActBetweenCycles : Prop :=
  ∀ s : State,
    (s.hostReset.fault.halted = false ∧ s.hostReset = { State.resetWith s.params with draws := s.draws }) ∧
    (s.drawAck.drawFlag = false ∧ s.drawAck = { s with drawFlag := s.drawAck.drawFlag } ∧ s.drawAck.drawAck = s.drawAck) ∧
    (∀ keys : Vector Bool 16, (∀ k (h : k < 16), (s.keyIn keys).key[k] = keys[k]) ∧
      s.keyIn keys = { s with key := (s.keyIn keys).key }) ∧
    (∀ (code : Nat) (b : Bool), 16 ≤ code → s.keyEvent code b = s) ∧
    (∀ (code : Nat) (b : Bool) (h : code < 16), (s.keyEvent code b).key[code] = b ∧
      (∀ j (hj : j < 16), j ≠ code → (s.keyEvent code b).key[j] = s.key[j]) ∧
      s.keyEvent code b = { s with key := (s.keyEvent code b).key }) ∧
    (∀ t : State, step s = .next t → t.key = s.key ∧ (s.drawFlag = true → t.drawFlag = true) ∧
      (s.fault.halted = true → t.fault.halted = true) ∧ t.params = s.params)

/-! ### The invariant -/

/-- The invariant holds at reset, for every `FONT`. -/
def Obligations.ResetHasInvariant : Prop := ∀ p : Config.Params, Inv (State.resetWith p)

/-- Every step keeps the invariant: canonical memory, a clear record while running, a record with a legal cause at the
faulting `pc` once halted, with the model's field `stepped` set (log 4). -/
def Obligations.StepKeepsInvariant : Prop := ∀ s t : State, Inv s → step s = .next t → Inv t

/-- From the invariant, any number of steps answers a next state with the invariant: no run of requested steps ever stops,
faults and halting included. That a fault and a step of a halted block answer next states is how the model reads
60_exceptions.md R251 to R253 (log 7): where R303 says that a run ends when the block halts, a run here goes on with steps
that do nothing. -/
def Obligations.RunNeverStopsAndKeepsInvariant : Prop :=
  ∀ (k : Nat) (s : State), Inv s → ∃ t : State, Host.Core.run Sys2Proof.core k s = .next t ∧ Inv t

/-! ### The cycle (30_encoding.md R93) -/

/-- The step runs the decoded instruction: fetch two bytes at `pc`, latch the word, advance `pc` by 2, run `exec`, and
then either keep nothing but the fault record and its event, or count the timers down and emit `ToneEnd` when `ST` was
1. `events` and `stepped` are the model's own fields (logs 2 and 4). -/
def Obligations.StepRunsDecodedInstruction : Prop :=
  ∀ (s : State) (i : Instr), s.fault.halted = false → s.pc.toNat + 1 < 4096 → i.WellFormed →
    decode [s.readByte s.pc.toNat, s.readByte (s.pc.toNat + 1)] = .ok (i, []) →
    ∃ u, exec i { s with
        opcode := wordOfBytes (s.readByte s.pc.toNat) (s.readByte (s.pc.toNat + 1)),
        pc := s.pc + 2, events := [], stepped := true } = .next u ∧
      (u.fault.halted = true →
        step s = .next { s with fault := u.fault, events := u.events, stepped := true }) ∧
      (u.fault.halted = false →
        step s = .next { u with
          DT := BitVec.ofNat 8 (u.DT.toNat - 1), ST := BitVec.ofNat 8 (u.ST.toNat - 1),
          events := u.events ++ (if u.ST = 1 then [.toneEnd] else []) })

/-- 60_exceptions.md R254: an unimplemented word is reported with its address and skipped; the Timer Step runs, and
nothing else changes but the latch. `events` and `stepped` are the model's own fields (logs 2 and 4). -/
def Obligations.UnimplementedWordIsReported : Prop :=
  ∀ (s : State) (w : Word), FetchesWord s w → decodeWord w = none →
    step s = .next { s with
      opcode := w, pc := s.pc + 2, DT := BitVec.ofNat 8 (s.DT.toNat - 1), ST := BitVec.ofNat 8 (s.ST.toNat - 1),
      events := .unimplemented w s.pc :: (if s.ST = 1 then [.toneEnd] else []), stepped := true }

/-- 60_exceptions.md R253: a step of a halted block does nothing and outputs no event, which the model's field `events`
carries (logs 2 and 7). -/
def Obligations.HaltedBlockDoesNothing : Prop :=
  ∀ s : State, s.fault.halted = true → step s = .next { s with events := [] }

/-- 30_encoding.md R93 and 60_exceptions.md R256: the fetch faults at `pc` from 4096 on, and at 4096 when only the second
byte is out of range. `events` and `stepped` are the model's own fields (logs 2 and 4). -/
def Obligations.FetchOutsideMemoryFaults : Prop :=
  ∀ s : State, s.fault.halted = false →
    (4096 ≤ s.pc.toNat → step s = .next { s with
      fault := { halted := true, cause := 3, pc := s.pc, info := BitVec.ofNat 17 s.pc.toNat },
      events := [.fault .fetchOutOfRange], stepped := true }) ∧
    (s.pc.toNat = 4095 → step s = .next { s with
      fault := { halted := true, cause := 3, pc := s.pc, info := 0x1000 },
      events := [.fault .fetchOutOfRange], stepped := true })

/-- 60_exceptions.md R252 (the spec's own decision D7): a cycle that faults leaves every state element other than the
fault record as it was, `pc` and the timers included, and the block halted with `fault_pc` at the instruction. What it
leaves in `events` and `stepped`, the model's own fields and no state elements of the spec (logs 2 and 4), is left open
here. -/
def Obligations.FaultIsPrecise : Prop :=
  ∀ s t : State, s.fault.halted = false → step s = .next t → t.fault.halted = true →
    ∃ (c : Cause) (info : BitVec 17),
      t = { s with fault := { halted := true, cause := c.code, pc := s.pc, info := info },
                   events := t.events, stepped := t.stepped }

/-- 60_exceptions.md R250: an instruction raises exactly what the table says, with its code and `fault_info`, and
otherwise completes with the fault record untouched: "No other instruction and no other condition raises a fault." The
event is read off the model's field `events` (log 2). -/
def Obligations.OnlyTableConditionsFault : Prop :=
  ∀ (i : Instr) (s : State),
    (∀ r, raiseOf i s = some r → exec i s = .next { s with
      fault := { halted := true, cause := r.cause.code, pc := s.pc - 2, info := r.info },
      events := [.fault r.cause] }) ∧
    (raiseOf i s = none → ∃ t, exec i s = .next t ∧ t.fault = s.fault ∧ t.events = s.events)

/-- Every step of every state answers a next state: no instruction, fault or unimplemented word stops the machine. That a
fault and a step of a halted block answer next states is how the model reads 60_exceptions.md R251 to R253 (log 7). -/
def Obligations.EveryStepAnswersNextState : Prop := ∀ s : State, ∃ t, step s = .next t

/-- 60_exceptions.md R260 to R262: in every cycle that neither faults nor sets the timer, `DT` and `ST` each count down by
one, never below zero, and `ToneEnd` is emitted exactly when `ST` was 1; a faulting or halted cycle counts nothing. -/
def Obligations.TimersCountOncePerCycle : Prop :=
  ∀ (s t : State) (w : Word), step s = .next t →
    (t.fault.halted = true → t.DT = s.DT ∧ t.ST = s.ST ∧ Event.toneEnd ∉ t.events) ∧
    (FetchesWord s w → t.fault.halted = false →
      ((∀ x, decodeWord w ≠ some (.ldDTVX x)) → t.DT.toNat = s.DT.toNat - 1) ∧
      ((∀ x, decodeWord w ≠ some (.ldSTVX x)) → t.ST.toNat = s.ST.toNat - 1 ∧
        (Event.toneEnd ∈ t.events ↔ s.ST.toNat = 1)))

/-- 60_exceptions.md R268, carried by the model's field `events` (log 2): the output of a step is at most one
`Unimplemented` and then at most one `ToneEnd`, or exactly one `Fault` when the cycle faulted, or nothing when the block
was halted. -/
def Obligations.StepOutputHasSpecShape : Prop :=
  ∀ s t : State, step s = .next t →
    (s.fault.halted = true → t.events = []) ∧
    (s.fault.halted = false → t.fault.halted = true → ∃ c : Cause, t.events = [.fault c] ∧ t.fault.cause = c.code) ∧
    (s.fault.halted = false → t.fault.halted = false →
      t.events = [] ∨ t.events = [.toneEnd] ∨ t.events = [.unimplemented t.opcode s.pc] ∨
        t.events = [.unimplemented t.opcode s.pc, .toneEnd])

/-! ### Decoding (30_encoding.md) -/

/-- Decoding the bytes of any well-formed instruction, every operand at every value, gives it back and consumes exactly
its two bytes. -/
def Obligations.DecodeEncodeRoundTrip : Prop :=
  ∀ (i : Instr) (rest : List Byte), i.WellFormed → decode (encodeBytes i ++ rest) = .ok (i, rest)

/-- The other direction: a word that decodes to an instruction differs from that instruction's canonical word only in the
bits that no handler examines (R99). -/
def Obligations.DecodedWordMatchesEncoding : Prop :=
  ∀ (w : Word) (i : Instr), decodeWord w = some i →
    i.WellFormed ∧ w &&& examinedBits i = encode i &&& examinedBits i

/-- 30_encoding.md R100: exactly these words are unimplemented. -/
def Obligations.UnimplementedWordsAreExactlyTheGaps : Prop :=
  ∀ w : Word, decodeWord w = none ↔
    (fieldF w = 0x0 ∧ fieldNN w ∉ [0xE0, 0xEE]) ∨
    (fieldF w = 0x8 ∧ fieldN w ∈ [0x8, 0x9, 0xA, 0xB, 0xC, 0xD, 0xF]) ∨
    (fieldF w = 0xE ∧ fieldNN w ∉ [0x9E, 0xA1]) ∨
    (fieldF w = 0xF ∧ fieldNN w ∉ [0x07, 0x0A, 0x15, 0x18, 0x1E, 0x29, 0x33, 0x55, 0x65])

/-- 30_encoding.md R101 (the spec's own inference from R94 to R100): a word decodes to an instruction exactly when it
matches that instruction's row of the opcode table and no other row, and to none exactly when it matches no row. -/
def Obligations.EveryWordMatchesOneRowOrNone : Prop :=
  ∀ w : Word,
    (∀ i, decodeWord w = some i → rowOf i ∈ opcodeTable ∧ ∀ r ∈ opcodeTable, r.matches w = true ↔ r = rowOf i) ∧
    (decodeWord w = none ↔ ∀ r ∈ opcodeTable, r.matches w = false)

/-- Words written out from the encodings decode to the instructions they stand for, at least one of every family, that is of
every value of the top nibble (00_scope.md R15), the words of C1 and C7 among them. -/
def Obligations.SampleWordsDecode : Prop :=
  decodeWord 0x00E0 = some .cls ∧ decodeWord 0x0AEE = some .ret ∧ decodeWord 0x0123 = none ∧
  decodeWord 0x1ABC = some (.jp 0xABC) ∧ decodeWord 0x2301 = some (.call 0x301) ∧
  decodeWord 0x3142 = some (.seNN 1 0x42) ∧ decodeWord 0x4F81 = some (.sneNN 15 0x81) ∧
  decodeWord 0x5127 = some (.seVY 1 2) ∧ decodeWord 0x6A42 = some (.ldNN 10 0x42) ∧
  decodeWord 0x7AFF = some (.addNN 10 0xFF) ∧ decodeWord 0x8124 = some (.addVY 1 2) ∧
  decodeWord 0x812E = some (.shl 1) ∧ decodeWord 0x8128 = none ∧ decodeWord 0x9121 = some (.sneVY 1 2) ∧
  decodeWord 0xA123 = some (.ldI 0x123) ∧ decodeWord 0xBFFE = some (.jpV0 0xFFE) ∧
  decodeWord 0xC17F = some (.rnd 1 0x7F) ∧ decodeWord 0xD12F = some (.drw 1 2 15) ∧
  decodeWord 0xE1A1 = some (.sknp 1) ∧ decodeWord 0xF133 = some (.ldBVX 1) ∧
  decodeWord 0xFF65 = some (.loadRegs 15)

/-! ### Rules about the whole machine -/

/-- 20_memory.md R61: a byte of memory changes only under FX33 and FX55, and only inside the bytes they store. -/
def Obligations.OnlyBcdAndStoreWriteMemory : Prop :=
  ∀ (i : Instr) (s t : State) (a : Nat), exec i s = .next t → t.readByte a ≠ s.readByte a →
    (∃ x, i = .ldBVX x ∧ s.I.toNat ≤ a ∧ a < s.I.toNat + 3) ∨
    (∃ x, i = .storeRegs x ∧ s.I.toNat ≤ a ∧ a < s.I.toNat + x.val + 1)

/-- 10_state.md R22, R23: a register changes only as the destination of an instruction that writes it or as the `V[F]`
side effect of 8XY4 to 8XY7, 8XYE and DXYN. -/
def Obligations.OnlyListedInstructionsWriteRegisters : Prop :=
  ∀ (i : Instr) (s t : State) (r : Reg), exec i s = .next t → t.getV r ≠ s.getV r → mayWriteReg i r = true

/-- 10_state.md R24: the writers of `I`. -/
def Obligations.OnlyListedInstructionsWriteIndex : Prop :=
  ∀ (i : Instr) (s t : State), exec i s = .next t → t.I ≠ s.I →
    (∃ nnn, i = .ldI nnn) ∨ (∃ x, i = .addIVX x ∨ i = .ldFVX x) ∨
    (s.params.indexIncrementOnBlock = true ∧ ∃ x, i = .storeRegs x ∨ i = .loadRegs x)

/-- 10_state.md R25 to R27: beyond the advance, the listed instructions alone write `pc`; 2NNN alone writes the stack, at
entry `sp`; 2NNN and 00EE alone move `sp`, by one. -/
def Obligations.OnlyListedInstructionsTransferControl : Prop :=
  ∀ (i : Instr) (s t : State), exec i s = .next t →
    (t.pc ≠ s.pc → mayWritePc i = true) ∧
    (∀ j (h : j < 16), t.stack[j] ≠ s.stack[j] → j = s.sp.val ∧ ∃ nnn, i = .call nnn) ∧
    (t.sp ≠ s.sp → (i = .ret ∧ t.sp.val + 1 = s.sp.val) ∨ ((∃ nnn, i = .call nnn) ∧ t.sp.val = s.sp.val + 1))

/-- 10_state.md R30 to R32: no step writes a key or clears the draw flag, and only 00E0 and DXYN change a cell or set
it. -/
def Obligations.OnlyDisplayInstructionsDraw : Prop :=
  (∀ s t : State, step s = .next t → t.key = s.key ∧ (s.drawFlag = true → t.drawFlag = true)) ∧
  ∀ (i : Instr) (s t : State), exec i s = .next t → (t.gfx ≠ s.gfx ∨ t.drawFlag ≠ s.drawFlag) →
    i = .cls ∨ ∃ x y n, i = .drw x y n

/-- 10_state.md R33, R38: no instruction and no later cycle depends on the opcode latch: a step from a state that
differs in the latch alone ends in the same state, but for a latch that a fault or a halted block leaves as it was. -/
def Obligations.OpcodeLatchIsNeverRead : Prop :=
  ∀ (s t : State) (v : Word), step s = .next t →
    (t.fault.halted = false → step { s with opcode := v } = .next t) ∧
    (t.fault.halted = true → step { s with opcode := v } = .next { t with opcode := v })

/-- 20_memory.md R64 for the host's placing of a word (log 1): `withFetchWord` makes it the word at `pc`, and changes no
other byte. -/
def Obligations.PlacedWordIsFetched : Prop :=
  ∀ (s : State) (w : Nat), Memory.wf s.params.font s.mem = true → s.fault.halted = false → s.pc.toNat + 1 < 4096 →
    FetchesWord (s.withFetchWord 16 w) (BitVec.ofNat 16 w) ∧
    OnlyBytes s.pc.toNat 2 s (s.withFetchWord 16 w)
end

