-- ==== Sys2Proof/Laws/Bits.lean ====
section
/-! SUPPORT. Words and their fields as numbers (30_encoding.md R91), the fields of the words the encoder builds, and the
bytes of a word (20_memory.md R64). -/

namespace Sys2Proof

theorem toNat_append_mul {m n : Nat} (a : BitVec m) (b : BitVec n) : (a ++ b).toNat = a.toNat * 2 ^ n + b.toNat := by
  rw [BitVec.toNat_append, ← Nat.shiftLeft_add_eq_or_of_lt b.isLt, Nat.shiftLeft_eq]

theorem word4_toNat (f x y n : Nibble) :
    (word4 f x y n).toNat = f.toNat * 4096 + x.toNat * 256 + y.toNat * 16 + n.toNat := by
  have h : (word4 f x y n).toNat = ((((f ++ x : BitVec 8) ++ y : BitVec 12) ++ n : BitVec (12 + 4))).toNat := rfl
  have h₁ : ((f ++ x : BitVec 8) ++ y : BitVec 12).toNat = (f ++ x : BitVec (4 + 4)).toNat * 2 ^ 4 + y.toNat :=
    toNat_append_mul _ _
  rw [h, toNat_append_mul, h₁, toNat_append_mul]
  omega

theorem wordXNN_toNat (f x : Nibble) (nn : Byte) :
    (wordXNN f x nn).toNat = f.toNat * 4096 + x.toNat * 256 + nn.toNat := by
  have h : (wordXNN f x nn).toNat = ((f ++ x : BitVec 8) ++ nn : BitVec (8 + 8)).toNat := rfl
  have h₁ : (f ++ x : BitVec 8).toNat = f.toNat * 2 ^ 4 + x.toNat := toNat_append_mul _ _
  rw [h, toNat_append_mul, h₁]
  omega

theorem wordNNN_toNat (f : Nibble) (nnn : Addr12) : (wordNNN f nnn).toNat = f.toNat * 4096 + nnn.toNat := by
  have h : (wordNNN f nnn).toNat = (f ++ nnn : BitVec (4 + 12)).toNat := rfl
  rw [h, toNat_append_mul]
  omega

theorem wordOfBytes_toNat (hi lo : Byte) : (wordOfBytes hi lo).toNat = hi.toNat * 256 + lo.toNat := by
  have h : (wordOfBytes hi lo).toNat = (hi ++ lo : BitVec (8 + 8)).toNat := rfl
  rw [h, toNat_append_mul]
  omega

theorem fieldF_toNat (op : Word) : (fieldF op).toNat = op.toNat / 4096 := by
  have := op.isLt
  simp [fieldF, Nat.shiftRight_eq_div_pow]
  omega

theorem fieldX_val (op : Word) : (fieldX op).val = op.toNat / 256 % 16 := by
  simp [fieldX, Nat.shiftRight_eq_div_pow]

theorem fieldY_val (op : Word) : (fieldY op).val = op.toNat / 16 % 16 := by
  simp [fieldY, Nat.shiftRight_eq_div_pow]

theorem fieldN_toNat (op : Word) : (fieldN op).toNat = op.toNat % 16 := by simp [fieldN]

theorem fieldNN_toNat (op : Word) : (fieldNN op).toNat = op.toNat % 256 := by simp [fieldNN]

theorem fieldNNN_toNat (op : Word) : (fieldNNN op).toNat = op.toNat % 4096 := by simp [fieldNNN]

theorem highByte_toNat (w : Word) : (highByte w).toNat = w.toNat / 256 := by
  have := w.isLt
  simp [highByte, Nat.shiftRight_eq_div_pow]
  omega

theorem lowByte_toNat (w : Word) : (lowByte w).toNat = w.toNat % 256 := by simp [lowByte]

@[simp] theorem regField_toNat (x : Reg) : (regField x).toNat = x.val := rfl

/-! ### Composed words -/

@[simp] theorem fieldF_word4 (f x y n : Nibble) : fieldF (word4 f x y n) = f := by
  apply BitVec.eq_of_toNat_eq
  rw [fieldF_toNat, word4_toNat]
  have := x.isLt; have := y.isLt; have := n.isLt
  omega

@[simp] theorem fieldX_word4 (f y n : Nibble) (x : Reg) : fieldX (word4 f (regField x) y n) = x := by
  apply Fin.ext
  rw [fieldX_val, word4_toNat, regField_toNat]
  have := x.isLt; have := y.isLt; have := n.isLt
  omega

@[simp] theorem fieldY_word4 (f x n : Nibble) (y : Reg) : fieldY (word4 f x (regField y) n) = y := by
  apply Fin.ext
  rw [fieldY_val, word4_toNat, regField_toNat]
  have := y.isLt; have := n.isLt
  omega

@[simp] theorem fieldN_word4 (f x y n : Nibble) : fieldN (word4 f x y n) = n := by
  apply BitVec.eq_of_toNat_eq
  rw [fieldN_toNat, word4_toNat]
  have := n.isLt
  omega

@[simp] theorem fieldF_wordXNN (f x : Nibble) (nn : Byte) : fieldF (wordXNN f x nn) = f := by
  apply BitVec.eq_of_toNat_eq
  rw [fieldF_toNat, wordXNN_toNat]
  have := x.isLt; have := nn.isLt
  omega

@[simp] theorem fieldX_wordXNN (f : Nibble) (x : Reg) (nn : Byte) : fieldX (wordXNN f (regField x) nn) = x := by
  apply Fin.ext
  rw [fieldX_val, wordXNN_toNat, regField_toNat]
  have := x.isLt; have := nn.isLt
  omega

@[simp] theorem fieldNN_wordXNN (f x : Nibble) (nn : Byte) : fieldNN (wordXNN f x nn) = nn := by
  apply BitVec.eq_of_toNat_eq
  rw [fieldNN_toNat, wordXNN_toNat]
  have := nn.isLt
  omega

@[simp] theorem fieldF_wordNNN (f : Nibble) (nnn : Addr12) : fieldF (wordNNN f nnn) = f := by
  apply BitVec.eq_of_toNat_eq
  rw [fieldF_toNat, wordNNN_toNat]
  have := nnn.isLt
  omega

@[simp] theorem fieldNNN_wordNNN (f : Nibble) (nnn : Addr12) : fieldNNN (wordNNN f nnn) = nnn := by
  apply BitVec.eq_of_toNat_eq
  rw [fieldNNN_toNat, wordNNN_toNat]
  have := nnn.isLt
  omega

/-- The two bytes of a word form it again. -/
@[simp] theorem wordOfBytes_bytes (w : Word) : wordOfBytes (highByte w) (lowByte w) = w := by
  apply BitVec.eq_of_toNat_eq
  rw [wordOfBytes_toNat, highByte_toNat, lowByte_toNat]
  omega

/-! ### Fields of a masked word -/

theorem fieldF_and (w m : Word) : fieldF (w &&& m) = fieldF w &&& fieldF m := by
  ext i hi
  simp [fieldF]

theorem fieldN_and (w m : Word) : fieldN (w &&& m) = fieldN w &&& fieldN m := by
  ext i hi
  simp [fieldN]

theorem fieldNN_and (w m : Word) : fieldNN (w &&& m) = fieldNN w &&& fieldNN m := by
  ext i hi
  simp [fieldNN]

/-- A word is its four digits. -/
theorem word4_fields (w : Word) :
    word4 (fieldF w) (regField (fieldX w)) (regField (fieldY w)) (fieldN w) = w := by
  apply BitVec.eq_of_toNat_eq
  rw [word4_toNat, regField_toNat, regField_toNat, fieldF_toNat, fieldX_val, fieldY_val, fieldN_toNat]
  omega

/-- Masking a word masks its four digits. -/
theorem word4_and (f x y n f' x' y' n' : Nibble) :
    word4 f x y n &&& word4 f' x' y' n' = word4 (f &&& f') (x &&& x') (y &&& y') (n &&& n') := by
  have h {m k : Nat} (a c : BitVec m) (b d : BitVec k) : (a ++ b) &&& (c ++ d) = (a &&& c) ++ (b &&& d) :=
    BitVec.and_append
  have e : (f ++ x ++ y ++ n : BitVec (4 + 4 + 4 + 4)) &&& (f' ++ x' ++ y' ++ n') =
      (f &&& f') ++ (x &&& x') ++ (y &&& y') ++ (n &&& n') := by rw [h, h, h]
  exact e

/-- `FXNN` by its digits. -/
theorem wordXNN_eq (f x : Nibble) (nn : Byte) :
    wordXNN f x nn = word4 f x (nn.extractLsb' 4 4) (nn.extractLsb' 0 4) := by
  apply BitVec.eq_of_toNat_eq
  rw [wordXNN_toNat, word4_toNat]
  simp [Nat.shiftRight_eq_div_pow]
  omega

/-- `FNNN` by its digits. -/
theorem wordNNN_eq (f : Nibble) (nnn : Addr12) :
    wordNNN f nnn = word4 f (nnn.extractLsb' 8 4) (nnn.extractLsb' 4 4) (nnn.extractLsb' 0 4) := by
  apply BitVec.eq_of_toNat_eq
  rw [wordNNN_toNat, word4_toNat]
  simp [Nat.shiftRight_eq_div_pow]
  omega

/-- Two words with the same four digits are equal. -/
theorem word_ext {v w : Word} (hF : fieldF v = fieldF w) (hX : fieldX v = fieldX w) (hY : fieldY v = fieldY w)
    (hN : fieldN v = fieldN w) : v = w := by
  rw [← word4_fields v, ← word4_fields w, hF, hX, hY, hN]

end Sys2Proof
end

