-- ==== Sys2Proof/Laws/Memory.lean ====
section
/-! SUPPORT. The laws of memory: a read after a write to the same address gives the byte written, a write leaves every
other address alone, and every write keeps the canonical form. -/

namespace Sys2Proof.Machine

/-- The addresses of a memory rise strictly. -/
abbrev Memory.Sorted (m : Memory) : Prop := m.Pairwise (fun c d => c.1 < d.1)

/-- Every entry lies in the address space and differs from the unlisted value. -/
abbrev Memory.Tight (font : Config.Font) (m : Memory) : Prop :=
  ∀ c ∈ m, c.1 < Config.memSize ∧ c.2 ≠ Memory.background font c.1

theorem Memory.wf_iff {font : Config.Font} {m : Memory} :
    Memory.wf font m = true ↔ Memory.Sorted m ∧ Memory.Tight font m := by
  simp [Memory.wf, Memory.Tight]

@[simp] theorem Memory.wf_nil (font : Config.Font) : Memory.wf font [] = true := rfl

theorem Memory.lookup_place (font : Config.Font) (a : Nat) (b : Byte) (m : Memory) {a' : Nat} (h : a' ≠ a) :
    Memory.lookup (Memory.place font a b m) a' = Memory.lookup m a' := by
  unfold Memory.place
  split <;> simp [Memory.lookup, h]

theorem Memory.lookup_write_ne (font : Config.Font) (m : Memory) (a : Nat) (b : Byte) {a' : Nat} (h : a' ≠ a) :
    Memory.lookup (Memory.write font m a b) a' = Memory.lookup m a' := by
  induction m with
  | nil => exact Memory.lookup_place font a b [] h
  | cons c rest ih =>
    unfold Memory.write
    split
    · exact Memory.lookup_place font a b _ h
    · split
      · rename_i hc
        rw [Memory.lookup_place font a b rest h]
        simp [Memory.lookup, hc ▸ h]
      · simp only [Memory.lookup, ih]

theorem Memory.lookup_eq_none {m : Memory} {a : Nat} (h : ∀ c ∈ m, a ≠ c.1) : Memory.lookup m a = none := by
  induction m with
  | nil => rfl
  | cons c rest ih =>
    simp only [List.mem_cons, forall_eq_or_imp] at h
    simp [Memory.lookup, h.1, ih h.2]

theorem Memory.read_place_self (font : Config.Font) {a : Nat} (b : Byte) {m : Memory} (h : ∀ c ∈ m, a ≠ c.1) :
    Memory.read font (Memory.place font a b m) a = b := by
  unfold Memory.place Memory.read
  split
  · rename_i hb
    simp [Memory.lookup_eq_none h, hb]
  · simp [Memory.lookup]

/-- A read after a write to the same address gives the byte written. -/
theorem Memory.read_write_self (font : Config.Font) {m : Memory} (hs : Memory.Sorted m) (a : Nat) (b : Byte) :
    Memory.read font (Memory.write font m a b) a = b := by
  induction m with
  | nil => exact Memory.read_place_self font b (by simp)
  | cons c rest ih =>
    have hr := List.pairwise_cons.mp hs
    unfold Memory.write
    split
    · rename_i hlt
      refine Memory.read_place_self font b fun d hd => ?_
      rcases List.mem_cons.mp hd with rfl | hd
      · omega
      · have := hr.1 d hd; omega
    · split
      · rename_i _ heq
        refine Memory.read_place_self font b fun d hd => ?_
        have := hr.1 d hd; omega
      · rename_i _ hne
        have := ih hr.2
        simpa [Memory.read, Memory.lookup, hne] using this

/-- A write leaves every other address alone. -/
theorem Memory.read_write_ne (font : Config.Font) (m : Memory) (a : Nat) (b : Byte) {a' : Nat} (h : a' ≠ a) :
    Memory.read font (Memory.write font m a b) a' = Memory.read font m a' := by
  simp [Memory.read, Memory.lookup_write_ne font m a b h]

theorem Memory.mem_place {font : Config.Font} {a : Nat} {b : Byte} {m : Memory} {c : Host.Cell}
    (h : c ∈ Memory.place font a b m) : (c = (a, b) ∧ b ≠ Memory.background font a) ∨ c ∈ m := by
  unfold Memory.place at h
  split at h
  · exact .inr h
  · rename_i hb
    exact (List.mem_cons.mp h).imp (fun hc => ⟨hc, hb⟩) id

theorem Memory.mem_write {font : Config.Font} {m : Memory} {a : Nat} {b : Byte} {c : Host.Cell}
    (h : c ∈ Memory.write font m a b) : (c = (a, b) ∧ b ≠ Memory.background font a) ∨ c ∈ m := by
  induction m with
  | nil => exact Memory.mem_place h
  | cons d rest ih =>
    unfold Memory.write at h
    split at h
    · exact Memory.mem_place h
    · split at h
      · exact (Memory.mem_place h).imp id (List.mem_cons_of_mem d)
      · rcases List.mem_cons.mp h with hd | hr
        · exact .inr (hd ▸ List.mem_cons_self)
        · exact (ih hr).imp id (List.mem_cons_of_mem d)

theorem Memory.sorted_place {font : Config.Font} {a : Nat} {b : Byte} {m : Memory} (hs : Memory.Sorted m)
    (h : ∀ c ∈ m, a < c.1) : Memory.Sorted (Memory.place font a b m) := by
  unfold Memory.place
  split
  · exact hs
  · exact List.pairwise_cons.mpr ⟨h, hs⟩

theorem Memory.sorted_write {font : Config.Font} {m : Memory} (hs : Memory.Sorted m) (a : Nat) (b : Byte) :
    Memory.Sorted (Memory.write font m a b) := by
  induction m with
  | nil => exact Memory.sorted_place hs (by simp)
  | cons c rest ih =>
    have hr := List.pairwise_cons.mp hs
    unfold Memory.write
    split
    · rename_i hlt
      refine Memory.sorted_place hs fun d hd => ?_
      rcases List.mem_cons.mp hd with rfl | hd
      · exact hlt
      · exact hlt.trans (hr.1 d hd)
    · split
      · rename_i _ heq
        exact Memory.sorted_place hr.2 fun d hd => heq ▸ hr.1 d hd
      · rename_i hnlt hne
        refine List.pairwise_cons.mpr ⟨fun d hd => ?_, ih hr.2⟩
        rcases Memory.mem_write hd with ⟨rfl, _⟩ | hd
        · show c.1 < a
          omega
        · exact hr.1 d hd

/-- A write inside the address space keeps the canonical form. -/
theorem Memory.wf_write {font : Config.Font} {m : Memory} {a : Nat} (h : Memory.wf font m = true)
    (ha : a < Config.memSize) (b : Byte) : Memory.wf font (Memory.write font m a b) = true := by
  have hm := Memory.wf_iff.mp h
  refine Memory.wf_iff.mpr ⟨Memory.sorted_write hm.1 a b, fun c hc => ?_⟩
  rcases Memory.mem_write hc with ⟨rfl, hb⟩ | hc
  · exact ⟨ha, hb⟩
  · exact hm.2 c hc

/-- Nothing listed reads as the reset content (10_state.md R21). -/
theorem Memory.read_nil (font : Config.Font) (a : Nat) : Memory.read font [] a = Memory.background font a := rfl

end Sys2Proof.Machine
end

