-- ==== Sys2Proof/Laws/State.lean ====
section
/-! SUPPORT. One lemma per field per update of the state, each true by rfl, so that no proof unfolds a record update; and
how the two accessors, a register and a byte of memory, read after each update. -/

namespace Sys2Proof.Machine

/-! ### State.setV -/

@[simp] theorem State.setV_mem (s : State) (x : Reg) (b : Byte) : (s.setV x b).mem = s.mem := rfl
@[simp] theorem State.setV_V (s : State) (x : Reg) (b : Byte) : (s.setV x b).V = s.V.set x.val b := rfl
@[simp] theorem State.setV_I (s : State) (x : Reg) (b : Byte) : (s.setV x b).I = s.I := rfl
@[simp] theorem State.setV_pc (s : State) (x : Reg) (b : Byte) : (s.setV x b).pc = s.pc := rfl
@[simp] theorem State.setV_stack (s : State) (x : Reg) (b : Byte) : (s.setV x b).stack = s.stack := rfl
@[simp] theorem State.setV_sp (s : State) (x : Reg) (b : Byte) : (s.setV x b).sp = s.sp := rfl
@[simp] theorem State.setV_DT (s : State) (x : Reg) (b : Byte) : (s.setV x b).DT = s.DT := rfl
@[simp] theorem State.setV_ST (s : State) (x : Reg) (b : Byte) : (s.setV x b).ST = s.ST := rfl
@[simp] theorem State.setV_gfx (s : State) (x : Reg) (b : Byte) : (s.setV x b).gfx = s.gfx := rfl
@[simp] theorem State.setV_key (s : State) (x : Reg) (b : Byte) : (s.setV x b).key = s.key := rfl
@[simp] theorem State.setV_drawFlag (s : State) (x : Reg) (b : Byte) : (s.setV x b).drawFlag = s.drawFlag := rfl
@[simp] theorem State.setV_opcode (s : State) (x : Reg) (b : Byte) : (s.setV x b).opcode = s.opcode := rfl
@[simp] theorem State.setV_fault (s : State) (x : Reg) (b : Byte) : (s.setV x b).fault = s.fault := rfl
@[simp] theorem State.setV_events (s : State) (x : Reg) (b : Byte) : (s.setV x b).events = s.events := rfl
@[simp] theorem State.setV_draws (s : State) (x : Reg) (b : Byte) : (s.setV x b).draws = s.draws := rfl
@[simp] theorem State.setV_stepped (s : State) (x : Reg) (b : Byte) : (s.setV x b).stepped = s.stepped := rfl
@[simp] theorem State.setV_params (s : State) (x : Reg) (b : Byte) : (s.setV x b).params = s.params := rfl
@[simp] theorem State.setV_readByte (s : State) (x : Reg) (b : Byte) (a' : Nat) : (s.setV x b).readByte a' = s.readByte a' := rfl

/-! ### State.setI -/

@[simp] theorem State.setI_mem (s : State) (w : Word) : (s.setI w).mem = s.mem := rfl
@[simp] theorem State.setI_V (s : State) (w : Word) : (s.setI w).V = s.V := rfl
@[simp] theorem State.setI_I (s : State) (w : Word) : (s.setI w).I = w := rfl
@[simp] theorem State.setI_pc (s : State) (w : Word) : (s.setI w).pc = s.pc := rfl
@[simp] theorem State.setI_stack (s : State) (w : Word) : (s.setI w).stack = s.stack := rfl
@[simp] theorem State.setI_sp (s : State) (w : Word) : (s.setI w).sp = s.sp := rfl
@[simp] theorem State.setI_DT (s : State) (w : Word) : (s.setI w).DT = s.DT := rfl
@[simp] theorem State.setI_ST (s : State) (w : Word) : (s.setI w).ST = s.ST := rfl
@[simp] theorem State.setI_gfx (s : State) (w : Word) : (s.setI w).gfx = s.gfx := rfl
@[simp] theorem State.setI_key (s : State) (w : Word) : (s.setI w).key = s.key := rfl
@[simp] theorem State.setI_drawFlag (s : State) (w : Word) : (s.setI w).drawFlag = s.drawFlag := rfl
@[simp] theorem State.setI_opcode (s : State) (w : Word) : (s.setI w).opcode = s.opcode := rfl
@[simp] theorem State.setI_fault (s : State) (w : Word) : (s.setI w).fault = s.fault := rfl
@[simp] theorem State.setI_events (s : State) (w : Word) : (s.setI w).events = s.events := rfl
@[simp] theorem State.setI_draws (s : State) (w : Word) : (s.setI w).draws = s.draws := rfl
@[simp] theorem State.setI_stepped (s : State) (w : Word) : (s.setI w).stepped = s.stepped := rfl
@[simp] theorem State.setI_params (s : State) (w : Word) : (s.setI w).params = s.params := rfl
@[simp] theorem State.setI_getV (s : State) (w : Word) (r : Reg) : (s.setI w).getV r = s.getV r := rfl
@[simp] theorem State.setI_readByte (s : State) (w : Word) (a' : Nat) : (s.setI w).readByte a' = s.readByte a' := rfl

/-! ### State.setPc -/

@[simp] theorem State.setPc_mem (s : State) (w : Word) : (s.setPc w).mem = s.mem := rfl
@[simp] theorem State.setPc_V (s : State) (w : Word) : (s.setPc w).V = s.V := rfl
@[simp] theorem State.setPc_I (s : State) (w : Word) : (s.setPc w).I = s.I := rfl
@[simp] theorem State.setPc_pc (s : State) (w : Word) : (s.setPc w).pc = w := rfl
@[simp] theorem State.setPc_stack (s : State) (w : Word) : (s.setPc w).stack = s.stack := rfl
@[simp] theorem State.setPc_sp (s : State) (w : Word) : (s.setPc w).sp = s.sp := rfl
@[simp] theorem State.setPc_DT (s : State) (w : Word) : (s.setPc w).DT = s.DT := rfl
@[simp] theorem State.setPc_ST (s : State) (w : Word) : (s.setPc w).ST = s.ST := rfl
@[simp] theorem State.setPc_gfx (s : State) (w : Word) : (s.setPc w).gfx = s.gfx := rfl
@[simp] theorem State.setPc_key (s : State) (w : Word) : (s.setPc w).key = s.key := rfl
@[simp] theorem State.setPc_drawFlag (s : State) (w : Word) : (s.setPc w).drawFlag = s.drawFlag := rfl
@[simp] theorem State.setPc_opcode (s : State) (w : Word) : (s.setPc w).opcode = s.opcode := rfl
@[simp] theorem State.setPc_fault (s : State) (w : Word) : (s.setPc w).fault = s.fault := rfl
@[simp] theorem State.setPc_events (s : State) (w : Word) : (s.setPc w).events = s.events := rfl
@[simp] theorem State.setPc_draws (s : State) (w : Word) : (s.setPc w).draws = s.draws := rfl
@[simp] theorem State.setPc_stepped (s : State) (w : Word) : (s.setPc w).stepped = s.stepped := rfl
@[simp] theorem State.setPc_params (s : State) (w : Word) : (s.setPc w).params = s.params := rfl
@[simp] theorem State.setPc_getV (s : State) (w : Word) (r : Reg) : (s.setPc w).getV r = s.getV r := rfl
@[simp] theorem State.setPc_readByte (s : State) (w : Word) (a' : Nat) : (s.setPc w).readByte a' = s.readByte a' := rfl

/-! ### State.setDT -/

@[simp] theorem State.setDT_mem (s : State) (b : Byte) : (s.setDT b).mem = s.mem := rfl
@[simp] theorem State.setDT_V (s : State) (b : Byte) : (s.setDT b).V = s.V := rfl
@[simp] theorem State.setDT_I (s : State) (b : Byte) : (s.setDT b).I = s.I := rfl
@[simp] theorem State.setDT_pc (s : State) (b : Byte) : (s.setDT b).pc = s.pc := rfl
@[simp] theorem State.setDT_stack (s : State) (b : Byte) : (s.setDT b).stack = s.stack := rfl
@[simp] theorem State.setDT_sp (s : State) (b : Byte) : (s.setDT b).sp = s.sp := rfl
@[simp] theorem State.setDT_DT (s : State) (b : Byte) : (s.setDT b).DT = b := rfl
@[simp] theorem State.setDT_ST (s : State) (b : Byte) : (s.setDT b).ST = s.ST := rfl
@[simp] theorem State.setDT_gfx (s : State) (b : Byte) : (s.setDT b).gfx = s.gfx := rfl
@[simp] theorem State.setDT_key (s : State) (b : Byte) : (s.setDT b).key = s.key := rfl
@[simp] theorem State.setDT_drawFlag (s : State) (b : Byte) : (s.setDT b).drawFlag = s.drawFlag := rfl
@[simp] theorem State.setDT_opcode (s : State) (b : Byte) : (s.setDT b).opcode = s.opcode := rfl
@[simp] theorem State.setDT_fault (s : State) (b : Byte) : (s.setDT b).fault = s.fault := rfl
@[simp] theorem State.setDT_events (s : State) (b : Byte) : (s.setDT b).events = s.events := rfl
@[simp] theorem State.setDT_draws (s : State) (b : Byte) : (s.setDT b).draws = s.draws := rfl
@[simp] theorem State.setDT_stepped (s : State) (b : Byte) : (s.setDT b).stepped = s.stepped := rfl
@[simp] theorem State.setDT_params (s : State) (b : Byte) : (s.setDT b).params = s.params := rfl
@[simp] theorem State.setDT_getV (s : State) (b : Byte) (r : Reg) : (s.setDT b).getV r = s.getV r := rfl
@[simp] theorem State.setDT_readByte (s : State) (b : Byte) (a' : Nat) : (s.setDT b).readByte a' = s.readByte a' := rfl

/-! ### State.setST -/

@[simp] theorem State.setST_mem (s : State) (b : Byte) : (s.setST b).mem = s.mem := rfl
@[simp] theorem State.setST_V (s : State) (b : Byte) : (s.setST b).V = s.V := rfl
@[simp] theorem State.setST_I (s : State) (b : Byte) : (s.setST b).I = s.I := rfl
@[simp] theorem State.setST_pc (s : State) (b : Byte) : (s.setST b).pc = s.pc := rfl
@[simp] theorem State.setST_stack (s : State) (b : Byte) : (s.setST b).stack = s.stack := rfl
@[simp] theorem State.setST_sp (s : State) (b : Byte) : (s.setST b).sp = s.sp := rfl
@[simp] theorem State.setST_DT (s : State) (b : Byte) : (s.setST b).DT = s.DT := rfl
@[simp] theorem State.setST_ST (s : State) (b : Byte) : (s.setST b).ST = b := rfl
@[simp] theorem State.setST_gfx (s : State) (b : Byte) : (s.setST b).gfx = s.gfx := rfl
@[simp] theorem State.setST_key (s : State) (b : Byte) : (s.setST b).key = s.key := rfl
@[simp] theorem State.setST_drawFlag (s : State) (b : Byte) : (s.setST b).drawFlag = s.drawFlag := rfl
@[simp] theorem State.setST_opcode (s : State) (b : Byte) : (s.setST b).opcode = s.opcode := rfl
@[simp] theorem State.setST_fault (s : State) (b : Byte) : (s.setST b).fault = s.fault := rfl
@[simp] theorem State.setST_events (s : State) (b : Byte) : (s.setST b).events = s.events := rfl
@[simp] theorem State.setST_draws (s : State) (b : Byte) : (s.setST b).draws = s.draws := rfl
@[simp] theorem State.setST_stepped (s : State) (b : Byte) : (s.setST b).stepped = s.stepped := rfl
@[simp] theorem State.setST_params (s : State) (b : Byte) : (s.setST b).params = s.params := rfl
@[simp] theorem State.setST_getV (s : State) (b : Byte) (r : Reg) : (s.setST b).getV r = s.getV r := rfl
@[simp] theorem State.setST_readByte (s : State) (b : Byte) (a' : Nat) : (s.setST b).readByte a' = s.readByte a' := rfl

/-! ### State.setGfx -/

@[simp] theorem State.setGfx_mem (s : State) (g : Gfx) : (s.setGfx g).mem = s.mem := rfl
@[simp] theorem State.setGfx_V (s : State) (g : Gfx) : (s.setGfx g).V = s.V := rfl
@[simp] theorem State.setGfx_I (s : State) (g : Gfx) : (s.setGfx g).I = s.I := rfl
@[simp] theorem State.setGfx_pc (s : State) (g : Gfx) : (s.setGfx g).pc = s.pc := rfl
@[simp] theorem State.setGfx_stack (s : State) (g : Gfx) : (s.setGfx g).stack = s.stack := rfl
@[simp] theorem State.setGfx_sp (s : State) (g : Gfx) : (s.setGfx g).sp = s.sp := rfl
@[simp] theorem State.setGfx_DT (s : State) (g : Gfx) : (s.setGfx g).DT = s.DT := rfl
@[simp] theorem State.setGfx_ST (s : State) (g : Gfx) : (s.setGfx g).ST = s.ST := rfl
@[simp] theorem State.setGfx_gfx (s : State) (g : Gfx) : (s.setGfx g).gfx = g := rfl
@[simp] theorem State.setGfx_key (s : State) (g : Gfx) : (s.setGfx g).key = s.key := rfl
@[simp] theorem State.setGfx_drawFlag (s : State) (g : Gfx) : (s.setGfx g).drawFlag = true := rfl
@[simp] theorem State.setGfx_opcode (s : State) (g : Gfx) : (s.setGfx g).opcode = s.opcode := rfl
@[simp] theorem State.setGfx_fault (s : State) (g : Gfx) : (s.setGfx g).fault = s.fault := rfl
@[simp] theorem State.setGfx_events (s : State) (g : Gfx) : (s.setGfx g).events = s.events := rfl
@[simp] theorem State.setGfx_draws (s : State) (g : Gfx) : (s.setGfx g).draws = s.draws := rfl
@[simp] theorem State.setGfx_stepped (s : State) (g : Gfx) : (s.setGfx g).stepped = s.stepped := rfl
@[simp] theorem State.setGfx_params (s : State) (g : Gfx) : (s.setGfx g).params = s.params := rfl
@[simp] theorem State.setGfx_getV (s : State) (g : Gfx) (r : Reg) : (s.setGfx g).getV r = s.getV r := rfl
@[simp] theorem State.setGfx_readByte (s : State) (g : Gfx) (a' : Nat) : (s.setGfx g).readByte a' = s.readByte a' := rfl

/-! ### State.setFlag -/

@[simp] theorem State.setFlag_mem (s : State) (c : Bool) : (s.setFlag c).mem = s.mem := rfl
@[simp] theorem State.setFlag_V (s : State) (c : Bool) : (s.setFlag c).V = s.V.set VF.val (flagByte c) := rfl
@[simp] theorem State.setFlag_I (s : State) (c : Bool) : (s.setFlag c).I = s.I := rfl
@[simp] theorem State.setFlag_pc (s : State) (c : Bool) : (s.setFlag c).pc = s.pc := rfl
@[simp] theorem State.setFlag_stack (s : State) (c : Bool) : (s.setFlag c).stack = s.stack := rfl
@[simp] theorem State.setFlag_sp (s : State) (c : Bool) : (s.setFlag c).sp = s.sp := rfl
@[simp] theorem State.setFlag_DT (s : State) (c : Bool) : (s.setFlag c).DT = s.DT := rfl
@[simp] theorem State.setFlag_ST (s : State) (c : Bool) : (s.setFlag c).ST = s.ST := rfl
@[simp] theorem State.setFlag_gfx (s : State) (c : Bool) : (s.setFlag c).gfx = s.gfx := rfl
@[simp] theorem State.setFlag_key (s : State) (c : Bool) : (s.setFlag c).key = s.key := rfl
@[simp] theorem State.setFlag_drawFlag (s : State) (c : Bool) : (s.setFlag c).drawFlag = s.drawFlag := rfl
@[simp] theorem State.setFlag_opcode (s : State) (c : Bool) : (s.setFlag c).opcode = s.opcode := rfl
@[simp] theorem State.setFlag_fault (s : State) (c : Bool) : (s.setFlag c).fault = s.fault := rfl
@[simp] theorem State.setFlag_events (s : State) (c : Bool) : (s.setFlag c).events = s.events := rfl
@[simp] theorem State.setFlag_draws (s : State) (c : Bool) : (s.setFlag c).draws = s.draws := rfl
@[simp] theorem State.setFlag_stepped (s : State) (c : Bool) : (s.setFlag c).stepped = s.stepped := rfl
@[simp] theorem State.setFlag_params (s : State) (c : Bool) : (s.setFlag c).params = s.params := rfl
@[simp] theorem State.setFlag_readByte (s : State) (c : Bool) (a' : Nat) : (s.setFlag c).readByte a' = s.readByte a' := rfl

/-! ### State.nextDraw -/

@[simp] theorem State.nextDraw_mem (s : State) : (s.nextDraw).mem = s.mem := rfl
@[simp] theorem State.nextDraw_V (s : State) : (s.nextDraw).V = s.V := rfl
@[simp] theorem State.nextDraw_I (s : State) : (s.nextDraw).I = s.I := rfl
@[simp] theorem State.nextDraw_pc (s : State) : (s.nextDraw).pc = s.pc := rfl
@[simp] theorem State.nextDraw_stack (s : State) : (s.nextDraw).stack = s.stack := rfl
@[simp] theorem State.nextDraw_sp (s : State) : (s.nextDraw).sp = s.sp := rfl
@[simp] theorem State.nextDraw_DT (s : State) : (s.nextDraw).DT = s.DT := rfl
@[simp] theorem State.nextDraw_ST (s : State) : (s.nextDraw).ST = s.ST := rfl
@[simp] theorem State.nextDraw_gfx (s : State) : (s.nextDraw).gfx = s.gfx := rfl
@[simp] theorem State.nextDraw_key (s : State) : (s.nextDraw).key = s.key := rfl
@[simp] theorem State.nextDraw_drawFlag (s : State) : (s.nextDraw).drawFlag = s.drawFlag := rfl
@[simp] theorem State.nextDraw_opcode (s : State) : (s.nextDraw).opcode = s.opcode := rfl
@[simp] theorem State.nextDraw_fault (s : State) : (s.nextDraw).fault = s.fault := rfl
@[simp] theorem State.nextDraw_events (s : State) : (s.nextDraw).events = s.events := rfl
@[simp] theorem State.nextDraw_draws (s : State) : (s.nextDraw).draws = s.draws + 1 := rfl
@[simp] theorem State.nextDraw_stepped (s : State) : (s.nextDraw).stepped = s.stepped := rfl
@[simp] theorem State.nextDraw_params (s : State) : (s.nextDraw).params = s.params := rfl
@[simp] theorem State.nextDraw_getV (s : State) (r : Reg) : (s.nextDraw).getV r = s.getV r := rfl
@[simp] theorem State.nextDraw_readByte (s : State) (a' : Nat) : (s.nextDraw).readByte a' = s.readByte a' := rfl

/-! ### State.writeByte -/

@[simp] theorem State.writeByte_mem (s : State) (a : Nat) (b : Byte) : (s.writeByte a b).mem = Memory.write s.params.font s.mem a b := rfl
@[simp] theorem State.writeByte_V (s : State) (a : Nat) (b : Byte) : (s.writeByte a b).V = s.V := rfl
@[simp] theorem State.writeByte_I (s : State) (a : Nat) (b : Byte) : (s.writeByte a b).I = s.I := rfl
@[simp] theorem State.writeByte_pc (s : State) (a : Nat) (b : Byte) : (s.writeByte a b).pc = s.pc := rfl
@[simp] theorem State.writeByte_stack (s : State) (a : Nat) (b : Byte) : (s.writeByte a b).stack = s.stack := rfl
@[simp] theorem State.writeByte_sp (s : State) (a : Nat) (b : Byte) : (s.writeByte a b).sp = s.sp := rfl
@[simp] theorem State.writeByte_DT (s : State) (a : Nat) (b : Byte) : (s.writeByte a b).DT = s.DT := rfl
@[simp] theorem State.writeByte_ST (s : State) (a : Nat) (b : Byte) : (s.writeByte a b).ST = s.ST := rfl
@[simp] theorem State.writeByte_gfx (s : State) (a : Nat) (b : Byte) : (s.writeByte a b).gfx = s.gfx := rfl
@[simp] theorem State.writeByte_key (s : State) (a : Nat) (b : Byte) : (s.writeByte a b).key = s.key := rfl
@[simp] theorem State.writeByte_drawFlag (s : State) (a : Nat) (b : Byte) : (s.writeByte a b).drawFlag = s.drawFlag := rfl
@[simp] theorem State.writeByte_opcode (s : State) (a : Nat) (b : Byte) : (s.writeByte a b).opcode = s.opcode := rfl
@[simp] theorem State.writeByte_fault (s : State) (a : Nat) (b : Byte) : (s.writeByte a b).fault = s.fault := rfl
@[simp] theorem State.writeByte_events (s : State) (a : Nat) (b : Byte) : (s.writeByte a b).events = s.events := rfl
@[simp] theorem State.writeByte_draws (s : State) (a : Nat) (b : Byte) : (s.writeByte a b).draws = s.draws := rfl
@[simp] theorem State.writeByte_stepped (s : State) (a : Nat) (b : Byte) : (s.writeByte a b).stepped = s.stepped := rfl
@[simp] theorem State.writeByte_params (s : State) (a : Nat) (b : Byte) : (s.writeByte a b).params = s.params := rfl
@[simp] theorem State.writeByte_getV (s : State) (a : Nat) (b : Byte) (r : Reg) : (s.writeByte a b).getV r = s.getV r := rfl

/-! ### beginCycle -/

@[simp] theorem beginCycle_mem (s : State) (w : Word) : (beginCycle w s).mem = s.mem := rfl
@[simp] theorem beginCycle_V (s : State) (w : Word) : (beginCycle w s).V = s.V := rfl
@[simp] theorem beginCycle_I (s : State) (w : Word) : (beginCycle w s).I = s.I := rfl
@[simp] theorem beginCycle_pc (s : State) (w : Word) : (beginCycle w s).pc = s.pc + 2 := rfl
@[simp] theorem beginCycle_stack (s : State) (w : Word) : (beginCycle w s).stack = s.stack := rfl
@[simp] theorem beginCycle_sp (s : State) (w : Word) : (beginCycle w s).sp = s.sp := rfl
@[simp] theorem beginCycle_DT (s : State) (w : Word) : (beginCycle w s).DT = s.DT := rfl
@[simp] theorem beginCycle_ST (s : State) (w : Word) : (beginCycle w s).ST = s.ST := rfl
@[simp] theorem beginCycle_gfx (s : State) (w : Word) : (beginCycle w s).gfx = s.gfx := rfl
@[simp] theorem beginCycle_key (s : State) (w : Word) : (beginCycle w s).key = s.key := rfl
@[simp] theorem beginCycle_drawFlag (s : State) (w : Word) : (beginCycle w s).drawFlag = s.drawFlag := rfl
@[simp] theorem beginCycle_opcode (s : State) (w : Word) : (beginCycle w s).opcode = w := rfl
@[simp] theorem beginCycle_fault (s : State) (w : Word) : (beginCycle w s).fault = s.fault := rfl
@[simp] theorem beginCycle_events (s : State) (w : Word) : (beginCycle w s).events = [] := rfl
@[simp] theorem beginCycle_draws (s : State) (w : Word) : (beginCycle w s).draws = s.draws := rfl
@[simp] theorem beginCycle_stepped (s : State) (w : Word) : (beginCycle w s).stepped = true := rfl
@[simp] theorem beginCycle_params (s : State) (w : Word) : (beginCycle w s).params = s.params := rfl
@[simp] theorem beginCycle_getV (s : State) (w : Word) (r : Reg) : (beginCycle w s).getV r = s.getV r := rfl
@[simp] theorem beginCycle_readByte (s : State) (w : Word) (a' : Nat) : (beginCycle w s).readByte a' = s.readByte a' := rfl

/-! ### execUnimplemented -/

@[simp] theorem execUnimplemented_mem (s : State) : (execUnimplemented s).mem = s.mem := rfl
@[simp] theorem execUnimplemented_V (s : State) : (execUnimplemented s).V = s.V := rfl
@[simp] theorem execUnimplemented_I (s : State) : (execUnimplemented s).I = s.I := rfl
@[simp] theorem execUnimplemented_pc (s : State) : (execUnimplemented s).pc = s.pc := rfl
@[simp] theorem execUnimplemented_stack (s : State) : (execUnimplemented s).stack = s.stack := rfl
@[simp] theorem execUnimplemented_sp (s : State) : (execUnimplemented s).sp = s.sp := rfl
@[simp] theorem execUnimplemented_DT (s : State) : (execUnimplemented s).DT = s.DT := rfl
@[simp] theorem execUnimplemented_ST (s : State) : (execUnimplemented s).ST = s.ST := rfl
@[simp] theorem execUnimplemented_gfx (s : State) : (execUnimplemented s).gfx = s.gfx := rfl
@[simp] theorem execUnimplemented_key (s : State) : (execUnimplemented s).key = s.key := rfl
@[simp] theorem execUnimplemented_drawFlag (s : State) : (execUnimplemented s).drawFlag = s.drawFlag := rfl
@[simp] theorem execUnimplemented_opcode (s : State) : (execUnimplemented s).opcode = s.opcode := rfl
@[simp] theorem execUnimplemented_fault (s : State) : (execUnimplemented s).fault = s.fault := rfl
@[simp] theorem execUnimplemented_events (s : State) : (execUnimplemented s).events = s.events ++ [.unimplemented s.opcode s.instrAddr] := rfl
@[simp] theorem execUnimplemented_draws (s : State) : (execUnimplemented s).draws = s.draws := rfl
@[simp] theorem execUnimplemented_stepped (s : State) : (execUnimplemented s).stepped = s.stepped := rfl
@[simp] theorem execUnimplemented_params (s : State) : (execUnimplemented s).params = s.params := rfl
@[simp] theorem execUnimplemented_getV (s : State) (r : Reg) : (execUnimplemented s).getV r = s.getV r := rfl
@[simp] theorem execUnimplemented_readByte (s : State) (a' : Nat) : (execUnimplemented s).readByte a' = s.readByte a' := rfl

/-! ### timerStep -/

@[simp] theorem timerStep_mem (s : State) : (timerStep s).mem = s.mem := rfl
@[simp] theorem timerStep_V (s : State) : (timerStep s).V = s.V := rfl
@[simp] theorem timerStep_I (s : State) : (timerStep s).I = s.I := rfl
@[simp] theorem timerStep_pc (s : State) : (timerStep s).pc = s.pc := rfl
@[simp] theorem timerStep_stack (s : State) : (timerStep s).stack = s.stack := rfl
@[simp] theorem timerStep_sp (s : State) : (timerStep s).sp = s.sp := rfl
@[simp] theorem timerStep_DT (s : State) : (timerStep s).DT = countDown s.DT := rfl
@[simp] theorem timerStep_ST (s : State) : (timerStep s).ST = countDown s.ST := rfl
@[simp] theorem timerStep_gfx (s : State) : (timerStep s).gfx = s.gfx := rfl
@[simp] theorem timerStep_key (s : State) : (timerStep s).key = s.key := rfl
@[simp] theorem timerStep_drawFlag (s : State) : (timerStep s).drawFlag = s.drawFlag := rfl
@[simp] theorem timerStep_opcode (s : State) : (timerStep s).opcode = s.opcode := rfl
@[simp] theorem timerStep_fault (s : State) : (timerStep s).fault = s.fault := rfl
@[simp] theorem timerStep_events (s : State) : (timerStep s).events = if s.ST = 1 then s.events ++ [.toneEnd] else s.events := rfl
@[simp] theorem timerStep_draws (s : State) : (timerStep s).draws = s.draws := rfl
@[simp] theorem timerStep_stepped (s : State) : (timerStep s).stepped = s.stepped := rfl
@[simp] theorem timerStep_params (s : State) : (timerStep s).params = s.params := rfl
@[simp] theorem timerStep_getV (s : State) (r : Reg) : (timerStep s).getV r = s.getV r := rfl
@[simp] theorem timerStep_readByte (s : State) (a' : Nat) : (timerStep s).readByte a' = s.readByte a' := rfl

/-! ### takeFault -/

@[simp] theorem takeFault_mem (s : State) (f : Raise) (a : Word) : (takeFault f a s).mem = s.mem := rfl
@[simp] theorem takeFault_V (s : State) (f : Raise) (a : Word) : (takeFault f a s).V = s.V := rfl
@[simp] theorem takeFault_I (s : State) (f : Raise) (a : Word) : (takeFault f a s).I = s.I := rfl
@[simp] theorem takeFault_pc (s : State) (f : Raise) (a : Word) : (takeFault f a s).pc = s.pc := rfl
@[simp] theorem takeFault_stack (s : State) (f : Raise) (a : Word) : (takeFault f a s).stack = s.stack := rfl
@[simp] theorem takeFault_sp (s : State) (f : Raise) (a : Word) : (takeFault f a s).sp = s.sp := rfl
@[simp] theorem takeFault_DT (s : State) (f : Raise) (a : Word) : (takeFault f a s).DT = s.DT := rfl
@[simp] theorem takeFault_ST (s : State) (f : Raise) (a : Word) : (takeFault f a s).ST = s.ST := rfl
@[simp] theorem takeFault_gfx (s : State) (f : Raise) (a : Word) : (takeFault f a s).gfx = s.gfx := rfl
@[simp] theorem takeFault_key (s : State) (f : Raise) (a : Word) : (takeFault f a s).key = s.key := rfl
@[simp] theorem takeFault_drawFlag (s : State) (f : Raise) (a : Word) : (takeFault f a s).drawFlag = s.drawFlag := rfl
@[simp] theorem takeFault_opcode (s : State) (f : Raise) (a : Word) : (takeFault f a s).opcode = s.opcode := rfl
@[simp] theorem takeFault_fault (s : State) (f : Raise) (a : Word) : (takeFault f a s).fault = f.record a := rfl
@[simp] theorem takeFault_events (s : State) (f : Raise) (a : Word) : (takeFault f a s).events = [.fault f.cause] := rfl
@[simp] theorem takeFault_draws (s : State) (f : Raise) (a : Word) : (takeFault f a s).draws = s.draws := rfl
@[simp] theorem takeFault_stepped (s : State) (f : Raise) (a : Word) : (takeFault f a s).stepped = s.stepped := rfl
@[simp] theorem takeFault_params (s : State) (f : Raise) (a : Word) : (takeFault f a s).params = s.params := rfl
@[simp] theorem takeFault_getV (s : State) (f : Raise) (a : Word) (r : Reg) : (takeFault f a s).getV r = s.getV r := rfl
@[simp] theorem takeFault_readByte (s : State) (f : Raise) (a : Word) (a' : Nat) : (takeFault f a s).readByte a' = s.readByte a' := rfl

/-! ### keepFault -/

@[simp] theorem keepFault_mem (s : State) (t : State) : (keepFault s t).mem = s.mem := rfl
@[simp] theorem keepFault_V (s : State) (t : State) : (keepFault s t).V = s.V := rfl
@[simp] theorem keepFault_I (s : State) (t : State) : (keepFault s t).I = s.I := rfl
@[simp] theorem keepFault_pc (s : State) (t : State) : (keepFault s t).pc = s.pc := rfl
@[simp] theorem keepFault_stack (s : State) (t : State) : (keepFault s t).stack = s.stack := rfl
@[simp] theorem keepFault_sp (s : State) (t : State) : (keepFault s t).sp = s.sp := rfl
@[simp] theorem keepFault_DT (s : State) (t : State) : (keepFault s t).DT = s.DT := rfl
@[simp] theorem keepFault_ST (s : State) (t : State) : (keepFault s t).ST = s.ST := rfl
@[simp] theorem keepFault_gfx (s : State) (t : State) : (keepFault s t).gfx = s.gfx := rfl
@[simp] theorem keepFault_key (s : State) (t : State) : (keepFault s t).key = s.key := rfl
@[simp] theorem keepFault_drawFlag (s : State) (t : State) : (keepFault s t).drawFlag = s.drawFlag := rfl
@[simp] theorem keepFault_opcode (s : State) (t : State) : (keepFault s t).opcode = s.opcode := rfl
@[simp] theorem keepFault_fault (s : State) (t : State) : (keepFault s t).fault = t.fault := rfl
@[simp] theorem keepFault_events (s : State) (t : State) : (keepFault s t).events = t.events := rfl
@[simp] theorem keepFault_draws (s : State) (t : State) : (keepFault s t).draws = s.draws := rfl
@[simp] theorem keepFault_stepped (s : State) (t : State) : (keepFault s t).stepped = true := rfl
@[simp] theorem keepFault_params (s : State) (t : State) : (keepFault s t).params = s.params := rfl
@[simp] theorem keepFault_getV (s : State) (t : State) (r : Reg) : (keepFault s t).getV r = s.getV r := rfl
@[simp] theorem keepFault_readByte (s : State) (t : State) (a' : Nat) : (keepFault s t).readByte a' = s.readByte a' := rfl

/-! ### haltedStep -/

@[simp] theorem haltedStep_mem (s : State) : (haltedStep s).mem = s.mem := rfl
@[simp] theorem haltedStep_V (s : State) : (haltedStep s).V = s.V := rfl
@[simp] theorem haltedStep_I (s : State) : (haltedStep s).I = s.I := rfl
@[simp] theorem haltedStep_pc (s : State) : (haltedStep s).pc = s.pc := rfl
@[simp] theorem haltedStep_stack (s : State) : (haltedStep s).stack = s.stack := rfl
@[simp] theorem haltedStep_sp (s : State) : (haltedStep s).sp = s.sp := rfl
@[simp] theorem haltedStep_DT (s : State) : (haltedStep s).DT = s.DT := rfl
@[simp] theorem haltedStep_ST (s : State) : (haltedStep s).ST = s.ST := rfl
@[simp] theorem haltedStep_gfx (s : State) : (haltedStep s).gfx = s.gfx := rfl
@[simp] theorem haltedStep_key (s : State) : (haltedStep s).key = s.key := rfl
@[simp] theorem haltedStep_drawFlag (s : State) : (haltedStep s).drawFlag = s.drawFlag := rfl
@[simp] theorem haltedStep_opcode (s : State) : (haltedStep s).opcode = s.opcode := rfl
@[simp] theorem haltedStep_fault (s : State) : (haltedStep s).fault = s.fault := rfl
@[simp] theorem haltedStep_events (s : State) : (haltedStep s).events = [] := rfl
@[simp] theorem haltedStep_draws (s : State) : (haltedStep s).draws = s.draws := rfl
@[simp] theorem haltedStep_stepped (s : State) : (haltedStep s).stepped = s.stepped := rfl
@[simp] theorem haltedStep_params (s : State) : (haltedStep s).params = s.params := rfl
@[simp] theorem haltedStep_getV (s : State) (r : Reg) : (haltedStep s).getV r = s.getV r := rfl
@[simp] theorem haltedStep_readByte (s : State) (a' : Nat) : (haltedStep s).readByte a' = s.readByte a' := rfl

/-! ### State.keyIn -/

@[simp] theorem State.keyIn_mem (s : State) (k : Vector Bool 16) : (s.keyIn k).mem = s.mem := rfl
@[simp] theorem State.keyIn_V (s : State) (k : Vector Bool 16) : (s.keyIn k).V = s.V := rfl
@[simp] theorem State.keyIn_I (s : State) (k : Vector Bool 16) : (s.keyIn k).I = s.I := rfl
@[simp] theorem State.keyIn_pc (s : State) (k : Vector Bool 16) : (s.keyIn k).pc = s.pc := rfl
@[simp] theorem State.keyIn_stack (s : State) (k : Vector Bool 16) : (s.keyIn k).stack = s.stack := rfl
@[simp] theorem State.keyIn_sp (s : State) (k : Vector Bool 16) : (s.keyIn k).sp = s.sp := rfl
@[simp] theorem State.keyIn_DT (s : State) (k : Vector Bool 16) : (s.keyIn k).DT = s.DT := rfl
@[simp] theorem State.keyIn_ST (s : State) (k : Vector Bool 16) : (s.keyIn k).ST = s.ST := rfl
@[simp] theorem State.keyIn_gfx (s : State) (k : Vector Bool 16) : (s.keyIn k).gfx = s.gfx := rfl
@[simp] theorem State.keyIn_key (s : State) (k : Vector Bool 16) : (s.keyIn k).key = k := rfl
@[simp] theorem State.keyIn_drawFlag (s : State) (k : Vector Bool 16) : (s.keyIn k).drawFlag = s.drawFlag := rfl
@[simp] theorem State.keyIn_opcode (s : State) (k : Vector Bool 16) : (s.keyIn k).opcode = s.opcode := rfl
@[simp] theorem State.keyIn_fault (s : State) (k : Vector Bool 16) : (s.keyIn k).fault = s.fault := rfl
@[simp] theorem State.keyIn_events (s : State) (k : Vector Bool 16) : (s.keyIn k).events = s.events := rfl
@[simp] theorem State.keyIn_draws (s : State) (k : Vector Bool 16) : (s.keyIn k).draws = s.draws := rfl
@[simp] theorem State.keyIn_stepped (s : State) (k : Vector Bool 16) : (s.keyIn k).stepped = s.stepped := rfl
@[simp] theorem State.keyIn_params (s : State) (k : Vector Bool 16) : (s.keyIn k).params = s.params := rfl
@[simp] theorem State.keyIn_getV (s : State) (k : Vector Bool 16) (r : Reg) : (s.keyIn k).getV r = s.getV r := rfl
@[simp] theorem State.keyIn_readByte (s : State) (k : Vector Bool 16) (a' : Nat) : (s.keyIn k).readByte a' = s.readByte a' := rfl

/-! ### State.drawAck -/

@[simp] theorem State.drawAck_mem (s : State) : (s.drawAck).mem = s.mem := rfl
@[simp] theorem State.drawAck_V (s : State) : (s.drawAck).V = s.V := rfl
@[simp] theorem State.drawAck_I (s : State) : (s.drawAck).I = s.I := rfl
@[simp] theorem State.drawAck_pc (s : State) : (s.drawAck).pc = s.pc := rfl
@[simp] theorem State.drawAck_stack (s : State) : (s.drawAck).stack = s.stack := rfl
@[simp] theorem State.drawAck_sp (s : State) : (s.drawAck).sp = s.sp := rfl
@[simp] theorem State.drawAck_DT (s : State) : (s.drawAck).DT = s.DT := rfl
@[simp] theorem State.drawAck_ST (s : State) : (s.drawAck).ST = s.ST := rfl
@[simp] theorem State.drawAck_gfx (s : State) : (s.drawAck).gfx = s.gfx := rfl
@[simp] theorem State.drawAck_key (s : State) : (s.drawAck).key = s.key := rfl
@[simp] theorem State.drawAck_drawFlag (s : State) : (s.drawAck).drawFlag = false := rfl
@[simp] theorem State.drawAck_opcode (s : State) : (s.drawAck).opcode = s.opcode := rfl
@[simp] theorem State.drawAck_fault (s : State) : (s.drawAck).fault = s.fault := rfl
@[simp] theorem State.drawAck_events (s : State) : (s.drawAck).events = s.events := rfl
@[simp] theorem State.drawAck_draws (s : State) : (s.drawAck).draws = s.draws := rfl
@[simp] theorem State.drawAck_stepped (s : State) : (s.drawAck).stepped = s.stepped := rfl
@[simp] theorem State.drawAck_params (s : State) : (s.drawAck).params = s.params := rfl
@[simp] theorem State.drawAck_getV (s : State) (r : Reg) : (s.drawAck).getV r = s.getV r := rfl
@[simp] theorem State.drawAck_readByte (s : State) (a' : Nat) : (s.drawAck).readByte a' = s.readByte a' := rfl

/-! ### Registers -/

@[simp] theorem State.getV_setV_self (s : State) (x : Reg) (b : Byte) : (s.setV x b).getV x = b := by
  simp [State.getV]

theorem State.getV_setV_ne (s : State) {x r : Reg} (b : Byte) (h : r ≠ x) : (s.setV x b).getV r = s.getV r := by
  have : x.val ≠ r.val := fun e => h (Fin.ext e.symm)
  simp [State.getV, this]

theorem State.getV_setV (s : State) (x r : Reg) (b : Byte) :
    (s.setV x b).getV r = if r = x then b else s.getV r := by
  split
  · rename_i h; subst h; exact s.getV_setV_self r b
  · exact s.getV_setV_ne b ‹_›

theorem State.setFlag_eq (s : State) (c : Bool) : s.setFlag c = s.setV VF (flagByte c) := rfl

@[simp] theorem State.getV_setFlag_self (s : State) (c : Bool) : (s.setFlag c).getV VF = flagByte c :=
  s.getV_setV_self VF (flagByte c)

theorem State.getV_setFlag_ne (s : State) (c : Bool) {r : Reg} (h : r ≠ VF) : (s.setFlag c).getV r = s.getV r :=
  s.getV_setV_ne (flagByte c) h

end Sys2Proof.Machine
end

