-- ==== Sys2Proof/Laws/Ops.lean ====
section
/-! SUPPORT. For each shared operation, what it does, said once: block reads and writes, the register block, the call
stack, the skip, the key scan, the framebuffer cell, and how a handler ends. -/

namespace Sys2Proof.Machine

/-! ### Blocks of memory -/

theorem memRead_eq (s : State) (a : Nat) :
    memRead s a = if a < 4096 then .ok (s.readByte a) else .error ⟨.readOutOfRange, addrInfo a⟩ := rfl

theorem memWrite_eq (s : State) (a : Nat) (b : Byte) :
    memWrite s a b = if a < 4096 then .ok (s.writeByte a b) else .error ⟨.writeOutOfRange, addrInfo a⟩ := rfl

/-- A block read inside memory answers the bytes in order. -/
theorem readBytes_ok (s : State) {a n : Nat} (h : n = 0 ∨ a + n ≤ 4096) :
    readBytes s a n = .ok ((List.range n).map fun k => s.readByte (a + k)) := by
  induction n generalizing a with
  | zero => rfl
  | succ n ih =>
    have ha : a < 4096 := by omega
    rw [readBytes, memRead_eq, if_pos ha, ih (by omega : n = 0 ∨ a + 1 + n ≤ 4096)]
    simp [List.range_succ_eq_map, Function.comp_def, Nat.add_left_comm, Nat.add_comm]

/-- A block read that leaves memory raises at its first address out of range. -/
theorem readBytes_error (s : State) {a n : Nat} (hn : 0 < n) (h : 4096 < a + n) :
    readBytes s a n = .error ⟨.readOutOfRange, addrInfo (max a 4096)⟩ := by
  induction n generalizing a with
  | zero => omega
  | succ n ih =>
    rw [readBytes, memRead_eq]
    by_cases ha : a < 4096
    · rw [if_pos ha, ih (by omega) (by omega)]
      have : max (a + 1) 4096 = max a 4096 := by omega
      simp [this]
    · rw [if_neg ha, Nat.max_eq_left (by omega)]

/-- A block write inside memory is the verbatim write. -/
theorem writeBytes_ok (s : State) {a : Nat} {bytes : List Byte} (h : bytes = [] ∨ a + bytes.length ≤ 4096) :
    writeBytes s a bytes = .ok (s.writeAll a bytes) := by
  induction bytes generalizing s a with
  | nil => rfl
  | cons b rest ih =>
    have hl : a + (rest.length + 1) ≤ 4096 := by simpa using h
    rw [writeBytes, memWrite_eq, if_pos (by omega), State.writeAll]
    exact ih (s.writeByte a b) (by right; omega)

/-- A block write that leaves memory raises at its first address out of range. -/
theorem writeBytes_error (s : State) {a : Nat} {bytes : List Byte} (hn : bytes ≠ []) (h : 4096 < a + bytes.length) :
    writeBytes s a bytes = .error ⟨.writeOutOfRange, addrInfo (max a 4096)⟩ := by
  induction bytes generalizing s a with
  | nil => exact absurd rfl hn
  | cons b rest ih =>
    rw [writeBytes, memWrite_eq]
    rw [List.length_cons] at h
    by_cases ha : a < 4096
    · rw [if_pos ha]
      have hr : rest ≠ [] := by rintro rfl; simp at h; omega
      have := ih (s.writeByte a b) (a := a + 1) hr (by omega)
      rw [show max (a + 1) 4096 = max a 4096 by omega] at this
      exact this
    · rw [if_neg ha, Nat.max_eq_left (by omega)]

/-- A verbatim write changes memory alone. -/
theorem State.writeAll_frame (s : State) (a : Nat) (bytes : List Byte) :
    s.writeAll a bytes = { s with mem := (s.writeAll a bytes).mem } := by
  induction bytes generalizing s a with
  | nil => rfl
  | cons b rest ih => rw [State.writeAll, ih (s.writeByte a b) (a + 1)]; rfl

/-- A byte outside the block reads as before. -/
theorem State.readByte_writeAll_of_not (s : State) {a : Nat} {bytes : List Byte} {c : Nat}
    (h : ¬ (a ≤ c ∧ c < a + bytes.length)) : (s.writeAll a bytes).readByte c = s.readByte c := by
  induction bytes generalizing s a with
  | nil => rfl
  | cons b rest ih =>
    rw [List.length_cons] at h
    rw [State.writeAll, ih (s.writeByte a b) (by omega)]
    exact Memory.read_write_ne _ _ _ _ (by omega)

theorem State.sorted_writeAll (s : State) (hs : Memory.Sorted s.mem) (a : Nat) (bytes : List Byte) :
    Memory.Sorted (s.writeAll a bytes).mem := by
  induction bytes generalizing s a with
  | nil => exact hs
  | cons b rest ih => exact ih (s.writeByte a b) (Memory.sorted_write hs a b) (a + 1)

/-- A byte of the block reads as the byte written to it. -/
theorem State.readByte_writeAll (s : State) (hs : Memory.Sorted s.mem) (a : Nat) {bytes : List Byte} {k : Nat}
    (h : k < bytes.length) : (s.writeAll a bytes).readByte (a + k) = bytes[k] := by
  induction bytes generalizing s a k with
  | nil => exact absurd h (by simp)
  | cons b rest ih =>
    cases k with
    | zero =>
      rw [State.writeAll, State.readByte_writeAll_of_not _ (by omega)]
      exact Memory.read_write_self _ hs a b
    | succ k =>
      have := ih (s.writeByte a b) (Memory.sorted_write hs a b) (a + 1) (k := k) (by simpa using h)
      rw [State.writeAll, show a + (k + 1) = a + 1 + k by omega, this]
      rfl

/-- A verbatim write inside memory keeps the canonical form. -/
theorem State.wf_writeAll (s : State) (hs : Memory.wf s.params.font s.mem = true) {a : Nat} {bytes : List Byte}
    (h : bytes = [] ∨ a + bytes.length ≤ 4096) : Memory.wf s.params.font (s.writeAll a bytes).mem = true := by
  induction bytes generalizing s a with
  | nil => exact hs
  | cons b rest ih =>
    have hl : a + (rest.length + 1) ≤ 4096 := by simpa using h
    exact ih (s.writeByte a b) (Memory.wf_write hs (by show a < 4096; omega) b) (by right; omega)

/-- What a block write can do. -/
theorem writeBytes_cases (s : State) (a : Nat) (bytes : List Byte) :
    ((bytes = [] ∨ a + bytes.length ≤ 4096) ∧ writeBytes s a bytes = .ok (s.writeAll a bytes)) ∨
    (4096 < a + bytes.length ∧ writeBytes s a bytes = .error ⟨.writeOutOfRange, addrInfo (max a 4096)⟩) := by
  by_cases h : bytes = [] ∨ a + bytes.length ≤ 4096
  · exact .inl ⟨h, writeBytes_ok s h⟩
  · have h' := not_or.mp h
    exact .inr ⟨by omega, writeBytes_error s h'.1 (by omega)⟩

/-- What a block read can do. -/
theorem readBytes_cases (s : State) (a n : Nat) :
    ((n = 0 ∨ a + n ≤ 4096) ∧ readBytes s a n = .ok ((List.range n).map fun k => s.readByte (a + k))) ∨
    (4096 < a + n ∧ readBytes s a n = .error ⟨.readOutOfRange, addrInfo (max a 4096)⟩) := by
  by_cases h : n = 0 ∨ a + n ≤ 4096
  · exact .inl ⟨h, readBytes_ok s h⟩
  · exact .inr ⟨by omega, readBytes_error s (by omega) (by omega)⟩

/-! ### The register block -/

@[simp] theorem regBlock_length (s : State) (x : Reg) : (regBlock s x).length = x.val + 1 := by
  simp [regBlock]

theorem regBlock_getElem (s : State) (x : Reg) {k : Nat} (h : k < (regBlock s x).length) :
    (regBlock s x)[k] = s.getV ⟨k, by have := x.isLt; simp at h; omega⟩ := by
  simp [regBlock, State.getV]

/-- Loading the block changes registers alone. -/
theorem setRegBlock_frame (s : State) (k : Nat) (bytes : List Byte) :
    setRegBlock s k bytes = { s with V := (setRegBlock s k bytes).V } := by
  induction bytes generalizing s k with
  | nil => rfl
  | cons b rest ih =>
    rw [setRegBlock]
    split
    · rw [ih]; rfl
    · rfl

theorem getV_setRegBlock_of_not (s : State) {k : Nat} {bytes : List Byte} {r : Reg}
    (h : ¬ (k ≤ r.val ∧ r.val < k + bytes.length)) : (setRegBlock s k bytes).getV r = s.getV r := by
  induction bytes generalizing s k with
  | nil => rfl
  | cons b rest ih =>
    rw [List.length_cons] at h
    rw [setRegBlock]
    split
    · rw [ih _ (by omega)]
      exact s.getV_setV_ne b (by rintro rfl; simp at h)
    · rfl

theorem getV_setRegBlock (s : State) {k : Nat} {bytes : List Byte} {r : Reg} (h₁ : k ≤ r.val)
    (h₂ : r.val < k + bytes.length) :
    (setRegBlock s k bytes).getV r = bytes[r.val - k]'(by omega) := by
  induction bytes generalizing s k with
  | nil => simp at h₂; omega
  | cons b rest ih =>
    rw [List.length_cons] at h₂
    have hk : k < 16 := by have := r.isLt; omega
    simp only [setRegBlock, dif_pos hk]
    by_cases he : k = r.val
    · subst he
      rw [getV_setRegBlock_of_not _ (by omega)]
      simp
    · rw [ih _ (by omega) (by omega)]
      rw [List.getElem_cons, dif_neg (by omega)]
      congr 1

/-! ### The advance of `I` (43_index_memory.md R216) -/

theorem advanceIndex_eq (s : State) (x : Reg) :
    advanceIndex s x =
      { s with I := if s.params.indexIncrementOnBlock then trunc16 (s.I.toNat + x.val + 1) else s.I } := by
  unfold advanceIndex
  split <;> rfl

/-! ### The skip -/

theorem skipIf_eq (c : Bool) (s : State) : skipIf c s = { s with pc := if c then s.pc + 2 else s.pc } := by
  cases c <;> rfl

/-! ### The keys -/

theorem keyNamed_ok (s : State) {k : Byte} (h : k.toNat < 16) : keyNamed s k = .ok s.key[k.toNat] := by
  simp [keyNamed, h]

theorem keyNamed_error (s : State) {k : Byte} (h : 16 ≤ k.toNat) :
    keyNamed s k = .error ⟨.keyIndexOutOfRange, k.setWidth 17⟩ := by
  simp [keyNamed, Nat.not_lt.mpr h]

theorem firstKey_eq_none {s : State} : firstKey s = none ↔ ∀ k : Reg, s.key[k.val] = false := by
  simp [firstKey]

theorem firstKey_eq_some {s : State} {k : Reg} :
    firstKey s = some k ↔ s.key[k.val] = true ∧ ∀ j : Reg, j < k → s.key[j.val] = false := by
  rw [firstKey, List.find?_eq_some_iff_getElem]
  constructor
  · rintro ⟨hk, i, hi, rfl, hlt⟩
    refine ⟨by simpa using hk, fun j hj => ?_⟩
    have := hlt j.val (by simpa [Fin.lt_def] using hj)
    simpa using this
  · rintro ⟨hk, hlt⟩
    refine ⟨by simpa using hk, k.val, by simp, by simp, fun j hj => ?_⟩
    simpa using hlt ⟨j, by omega⟩ hj

/-! ### The framebuffer -/

theorem cellIndex_lt (x y : Nat) : cellIndex x y < 2048 := by
  unfold cellIndex
  simp only [Config.screenH, Config.screenW]
  omega

/-- Toggling a cell inverts it and leaves every other cell alone. -/
theorem cellLit_toggleCell (g : Gfx) {k : Nat} (hk : k < 2048) (j : Nat) :
    cellLit (toggleCell g k) j = (cellLit g j ^^ decide (j = k)) := by
  unfold cellLit toggleCell
  by_cases hj : j < 2048
  · simp only [hk, hj, dif_pos, Vector.getElem_set]
    by_cases hrow : k / 64 = j / 64
    · rw [if_pos hrow]
      simp only [hrow, BitVec.getLsbD_xor, BitVec.getLsbD_shiftLeft, BitVec.getLsbD_one]
      congr 1
      by_cases he : j = k
      · subst he; simp [Nat.mod_lt]
      · have : j % 64 ≠ k % 64 := by omega
        simp only [he, decide_false]
        by_cases hlt : j % 64 < k % 64
        · simp [hlt]
        · have : j % 64 - k % 64 ≠ 0 := by omega
          simp [this]
    · rw [if_neg hrow]
      have : j ≠ k := by rintro rfl; exact hrow rfl
      simp [this]
  · have : j ≠ k := by omega
    simp [hj, this]

@[simp] theorem cellLit_clear (k : Nat) : cellLit (Vector.replicate 32 0) k = false := by
  simp [cellLit]

/-! ### The fields these operations leave alone, or set -/

@[simp] theorem State.writeAll_V (s : State) (a : Nat) (bytes : List Byte) :
    (s.writeAll a bytes).V = s.V := by
  rw [State.writeAll_frame]

@[simp] theorem State.writeAll_I (s : State) (a : Nat) (bytes : List Byte) :
    (s.writeAll a bytes).I = s.I := by
  rw [State.writeAll_frame]

@[simp] theorem State.writeAll_pc (s : State) (a : Nat) (bytes : List Byte) :
    (s.writeAll a bytes).pc = s.pc := by
  rw [State.writeAll_frame]

@[simp] theorem State.writeAll_stack (s : State) (a : Nat) (bytes : List Byte) :
    (s.writeAll a bytes).stack = s.stack := by
  rw [State.writeAll_frame]

@[simp] theorem State.writeAll_sp (s : State) (a : Nat) (bytes : List Byte) :
    (s.writeAll a bytes).sp = s.sp := by
  rw [State.writeAll_frame]

@[simp] theorem State.writeAll_DT (s : State) (a : Nat) (bytes : List Byte) :
    (s.writeAll a bytes).DT = s.DT := by
  rw [State.writeAll_frame]

@[simp] theorem State.writeAll_ST (s : State) (a : Nat) (bytes : List Byte) :
    (s.writeAll a bytes).ST = s.ST := by
  rw [State.writeAll_frame]

@[simp] theorem State.writeAll_gfx (s : State) (a : Nat) (bytes : List Byte) :
    (s.writeAll a bytes).gfx = s.gfx := by
  rw [State.writeAll_frame]

@[simp] theorem State.writeAll_key (s : State) (a : Nat) (bytes : List Byte) :
    (s.writeAll a bytes).key = s.key := by
  rw [State.writeAll_frame]

@[simp] theorem State.writeAll_drawFlag (s : State) (a : Nat) (bytes : List Byte) :
    (s.writeAll a bytes).drawFlag = s.drawFlag := by
  rw [State.writeAll_frame]

@[simp] theorem State.writeAll_opcode (s : State) (a : Nat) (bytes : List Byte) :
    (s.writeAll a bytes).opcode = s.opcode := by
  rw [State.writeAll_frame]

@[simp] theorem State.writeAll_fault (s : State) (a : Nat) (bytes : List Byte) :
    (s.writeAll a bytes).fault = s.fault := by
  rw [State.writeAll_frame]

@[simp] theorem State.writeAll_events (s : State) (a : Nat) (bytes : List Byte) :
    (s.writeAll a bytes).events = s.events := by
  rw [State.writeAll_frame]

@[simp] theorem State.writeAll_draws (s : State) (a : Nat) (bytes : List Byte) :
    (s.writeAll a bytes).draws = s.draws := by
  rw [State.writeAll_frame]

@[simp] theorem State.writeAll_stepped (s : State) (a : Nat) (bytes : List Byte) :
    (s.writeAll a bytes).stepped = s.stepped := by
  rw [State.writeAll_frame]

@[simp] theorem State.writeAll_params (s : State) (a : Nat) (bytes : List Byte) :
    (s.writeAll a bytes).params = s.params := by
  rw [State.writeAll_frame]

@[simp] theorem State.writeAll_getV (s : State) (a : Nat) (bytes : List Byte) (r : Reg) : (s.writeAll a bytes).getV r = s.getV r := by
  simp [State.getV]

@[simp] theorem setRegBlock_mem (s : State) (k : Nat) (bytes : List Byte) :
    (setRegBlock s k bytes).mem = s.mem := by
  rw [setRegBlock_frame]

@[simp] theorem setRegBlock_I (s : State) (k : Nat) (bytes : List Byte) :
    (setRegBlock s k bytes).I = s.I := by
  rw [setRegBlock_frame]

@[simp] theorem setRegBlock_pc (s : State) (k : Nat) (bytes : List Byte) :
    (setRegBlock s k bytes).pc = s.pc := by
  rw [setRegBlock_frame]

@[simp] theorem setRegBlock_stack (s : State) (k : Nat) (bytes : List Byte) :
    (setRegBlock s k bytes).stack = s.stack := by
  rw [setRegBlock_frame]

@[simp] theorem setRegBlock_sp (s : State) (k : Nat) (bytes : List Byte) :
    (setRegBlock s k bytes).sp = s.sp := by
  rw [setRegBlock_frame]

@[simp] theorem setRegBlock_DT (s : State) (k : Nat) (bytes : List Byte) :
    (setRegBlock s k bytes).DT = s.DT := by
  rw [setRegBlock_frame]

@[simp] theorem setRegBlock_ST (s : State) (k : Nat) (bytes : List Byte) :
    (setRegBlock s k bytes).ST = s.ST := by
  rw [setRegBlock_frame]

@[simp] theorem setRegBlock_gfx (s : State) (k : Nat) (bytes : List Byte) :
    (setRegBlock s k bytes).gfx = s.gfx := by
  rw [setRegBlock_frame]

@[simp] theorem setRegBlock_key (s : State) (k : Nat) (bytes : List Byte) :
    (setRegBlock s k bytes).key = s.key := by
  rw [setRegBlock_frame]

@[simp] theorem setRegBlock_drawFlag (s : State) (k : Nat) (bytes : List Byte) :
    (setRegBlock s k bytes).drawFlag = s.drawFlag := by
  rw [setRegBlock_frame]

@[simp] theorem setRegBlock_opcode (s : State) (k : Nat) (bytes : List Byte) :
    (setRegBlock s k bytes).opcode = s.opcode := by
  rw [setRegBlock_frame]

@[simp] theorem setRegBlock_fault (s : State) (k : Nat) (bytes : List Byte) :
    (setRegBlock s k bytes).fault = s.fault := by
  rw [setRegBlock_frame]

@[simp] theorem setRegBlock_events (s : State) (k : Nat) (bytes : List Byte) :
    (setRegBlock s k bytes).events = s.events := by
  rw [setRegBlock_frame]

@[simp] theorem setRegBlock_draws (s : State) (k : Nat) (bytes : List Byte) :
    (setRegBlock s k bytes).draws = s.draws := by
  rw [setRegBlock_frame]

@[simp] theorem setRegBlock_stepped (s : State) (k : Nat) (bytes : List Byte) :
    (setRegBlock s k bytes).stepped = s.stepped := by
  rw [setRegBlock_frame]

@[simp] theorem setRegBlock_params (s : State) (k : Nat) (bytes : List Byte) :
    (setRegBlock s k bytes).params = s.params := by
  rw [setRegBlock_frame]

@[simp] theorem setRegBlock_readByte (s : State) (k : Nat) (bytes : List Byte) (a' : Nat) :
    (setRegBlock s k bytes).readByte a' = s.readByte a' := by
  simp [State.readByte]

@[simp] theorem advanceIndex_mem (s : State) (x : Reg) :
    (advanceIndex s x).mem = s.mem := by
  rw [advanceIndex_eq]

@[simp] theorem advanceIndex_V (s : State) (x : Reg) :
    (advanceIndex s x).V = s.V := by
  rw [advanceIndex_eq]

@[simp] theorem advanceIndex_I (s : State) (x : Reg) :
    (advanceIndex s x).I = if s.params.indexIncrementOnBlock then trunc16 (s.I.toNat + x.val + 1) else s.I := by
  rw [advanceIndex_eq]

@[simp] theorem advanceIndex_pc (s : State) (x : Reg) :
    (advanceIndex s x).pc = s.pc := by
  rw [advanceIndex_eq]

@[simp] theorem advanceIndex_stack (s : State) (x : Reg) :
    (advanceIndex s x).stack = s.stack := by
  rw [advanceIndex_eq]

@[simp] theorem advanceIndex_sp (s : State) (x : Reg) :
    (advanceIndex s x).sp = s.sp := by
  rw [advanceIndex_eq]

@[simp] theorem advanceIndex_DT (s : State) (x : Reg) :
    (advanceIndex s x).DT = s.DT := by
  rw [advanceIndex_eq]

@[simp] theorem advanceIndex_ST (s : State) (x : Reg) :
    (advanceIndex s x).ST = s.ST := by
  rw [advanceIndex_eq]

@[simp] theorem advanceIndex_gfx (s : State) (x : Reg) :
    (advanceIndex s x).gfx = s.gfx := by
  rw [advanceIndex_eq]

@[simp] theorem advanceIndex_key (s : State) (x : Reg) :
    (advanceIndex s x).key = s.key := by
  rw [advanceIndex_eq]

@[simp] theorem advanceIndex_drawFlag (s : State) (x : Reg) :
    (advanceIndex s x).drawFlag = s.drawFlag := by
  rw [advanceIndex_eq]

@[simp] theorem advanceIndex_opcode (s : State) (x : Reg) :
    (advanceIndex s x).opcode = s.opcode := by
  rw [advanceIndex_eq]

@[simp] theorem advanceIndex_fault (s : State) (x : Reg) :
    (advanceIndex s x).fault = s.fault := by
  rw [advanceIndex_eq]

@[simp] theorem advanceIndex_events (s : State) (x : Reg) :
    (advanceIndex s x).events = s.events := by
  rw [advanceIndex_eq]

@[simp] theorem advanceIndex_draws (s : State) (x : Reg) :
    (advanceIndex s x).draws = s.draws := by
  rw [advanceIndex_eq]

@[simp] theorem advanceIndex_stepped (s : State) (x : Reg) :
    (advanceIndex s x).stepped = s.stepped := by
  rw [advanceIndex_eq]

@[simp] theorem advanceIndex_params (s : State) (x : Reg) :
    (advanceIndex s x).params = s.params := by
  rw [advanceIndex_eq]

@[simp] theorem advanceIndex_getV (s : State) (x : Reg) (r : Reg) : (advanceIndex s x).getV r = s.getV r := by
  simp [State.getV]

@[simp] theorem advanceIndex_readByte (s : State) (x : Reg) (a' : Nat) :
    (advanceIndex s x).readByte a' = s.readByte a' := by
  simp [State.readByte]

@[simp] theorem skipIf_mem (s : State) (c : Bool) :
    (skipIf c s).mem = s.mem := by
  rw [skipIf_eq]

@[simp] theorem skipIf_V (s : State) (c : Bool) :
    (skipIf c s).V = s.V := by
  rw [skipIf_eq]

@[simp] theorem skipIf_I (s : State) (c : Bool) :
    (skipIf c s).I = s.I := by
  rw [skipIf_eq]

@[simp] theorem skipIf_pc (s : State) (c : Bool) :
    (skipIf c s).pc = if c then s.pc + 2 else s.pc := by
  rw [skipIf_eq]

@[simp] theorem skipIf_stack (s : State) (c : Bool) :
    (skipIf c s).stack = s.stack := by
  rw [skipIf_eq]

@[simp] theorem skipIf_sp (s : State) (c : Bool) :
    (skipIf c s).sp = s.sp := by
  rw [skipIf_eq]

@[simp] theorem skipIf_DT (s : State) (c : Bool) :
    (skipIf c s).DT = s.DT := by
  rw [skipIf_eq]

@[simp] theorem skipIf_ST (s : State) (c : Bool) :
    (skipIf c s).ST = s.ST := by
  rw [skipIf_eq]

@[simp] theorem skipIf_gfx (s : State) (c : Bool) :
    (skipIf c s).gfx = s.gfx := by
  rw [skipIf_eq]

@[simp] theorem skipIf_key (s : State) (c : Bool) :
    (skipIf c s).key = s.key := by
  rw [skipIf_eq]

@[simp] theorem skipIf_drawFlag (s : State) (c : Bool) :
    (skipIf c s).drawFlag = s.drawFlag := by
  rw [skipIf_eq]

@[simp] theorem skipIf_opcode (s : State) (c : Bool) :
    (skipIf c s).opcode = s.opcode := by
  rw [skipIf_eq]

@[simp] theorem skipIf_fault (s : State) (c : Bool) :
    (skipIf c s).fault = s.fault := by
  rw [skipIf_eq]

@[simp] theorem skipIf_events (s : State) (c : Bool) :
    (skipIf c s).events = s.events := by
  rw [skipIf_eq]

@[simp] theorem skipIf_draws (s : State) (c : Bool) :
    (skipIf c s).draws = s.draws := by
  rw [skipIf_eq]

@[simp] theorem skipIf_stepped (s : State) (c : Bool) :
    (skipIf c s).stepped = s.stepped := by
  rw [skipIf_eq]

@[simp] theorem skipIf_params (s : State) (c : Bool) :
    (skipIf c s).params = s.params := by
  rw [skipIf_eq]

@[simp] theorem skipIf_getV (s : State) (c : Bool) (r : Reg) : (skipIf c s).getV r = s.getV r := by
  simp [State.getV]

@[simp] theorem skipIf_readByte (s : State) (c : Bool) (a' : Nat) :
    (skipIf c s).readByte a' = s.readByte a' := by
  simp [State.readByte]

@[simp] theorem showDrawing_mem (s : State) (d : Drawing) : (showDrawing s d).mem = s.mem := rfl

@[simp] theorem showDrawing_V (s : State) (d : Drawing) : (showDrawing s d).V = s.V.set VF.val (flagByte d.collision) := rfl

@[simp] theorem showDrawing_I (s : State) (d : Drawing) : (showDrawing s d).I = s.I := rfl

@[simp] theorem showDrawing_pc (s : State) (d : Drawing) : (showDrawing s d).pc = s.pc := rfl

@[simp] theorem showDrawing_stack (s : State) (d : Drawing) : (showDrawing s d).stack = s.stack := rfl

@[simp] theorem showDrawing_sp (s : State) (d : Drawing) : (showDrawing s d).sp = s.sp := rfl

@[simp] theorem showDrawing_DT (s : State) (d : Drawing) : (showDrawing s d).DT = s.DT := rfl

@[simp] theorem showDrawing_ST (s : State) (d : Drawing) : (showDrawing s d).ST = s.ST := rfl

@[simp] theorem showDrawing_gfx (s : State) (d : Drawing) : (showDrawing s d).gfx = d.gfx := rfl

@[simp] theorem showDrawing_key (s : State) (d : Drawing) : (showDrawing s d).key = s.key := rfl

@[simp] theorem showDrawing_drawFlag (s : State) (d : Drawing) : (showDrawing s d).drawFlag = true := rfl

@[simp] theorem showDrawing_opcode (s : State) (d : Drawing) : (showDrawing s d).opcode = s.opcode := rfl

@[simp] theorem showDrawing_fault (s : State) (d : Drawing) : (showDrawing s d).fault = s.fault := rfl

@[simp] theorem showDrawing_events (s : State) (d : Drawing) : (showDrawing s d).events = s.events := rfl

@[simp] theorem showDrawing_draws (s : State) (d : Drawing) : (showDrawing s d).draws = s.draws := rfl

@[simp] theorem showDrawing_stepped (s : State) (d : Drawing) : (showDrawing s d).stepped = s.stepped := rfl

@[simp] theorem showDrawing_params (s : State) (d : Drawing) : (showDrawing s d).params = s.params := rfl

@[simp] theorem showDrawing_readByte (s : State) (d : Drawing) (a' : Nat) :
    (showDrawing s d).readByte a' = s.readByte a' := by
  simp [State.readByte]

/-! ### How a handler ends -/

@[simp] theorem finish_ok (s t : State) : finish s (.ok t) = .next t := rfl

@[simp] theorem finish_error (s : State) (r : Raise) : finish s (.error r) = .next (takeFault r s.instrAddr s) := rfl

/-- A handler always ends in a next state: its own, or the one that takes the fault it raised. -/
theorem finish_cases (s : State) (e : Except Raise State) :
    (∃ t, e = .ok t ∧ finish s e = .next t) ∨
    (∃ r, e = .error r ∧ finish s e = .next (takeFault r s.instrAddr s)) := by
  cases e with
  | ok t => exact .inl ⟨t, rfl, rfl⟩
  | error r => exact .inr ⟨r, rfl, rfl⟩

end Sys2Proof.Machine
end

