-- ==== Sys2Proof/Laws/Display.lean ====
section
/-! SUPPORT. Drawing a sprite (40_display.md R121) as one pass over the list of cells its lit pixels fall on: what the
pass inverts, when it collides, and that the list names no cell twice. -/

namespace Sys2Proof.Machine

/-- One lit pixel falling on cell `k`. -/
def hitCell (d : Drawing) (k : Nat) : Drawing :=
  { gfx := toggleCell d.gfx k, collision := d.collision || cellLit d.gfx k }

/-- The cells the lit pixels of one sprite row fall on, left to right. -/
def rowCells (x0 y : Nat) (row : Byte) : List Nat :=
  ((List.range 8).filter (spriteBit row)).map fun c => cellIndex (x0 + c) y

/-- The cells the lit pixels of a sprite fall on, in drawing order. -/
def spriteCells (x0 y : Nat) (rows : List Byte) : List Nat :=
  match rows with
  | [] => []
  | row :: rest => rowCells x0 y row ++ spriteCells x0 (y + 1) rest

theorem drawRow_eq (x0 y : Nat) (row : Byte) (d : Drawing) :
    drawRow x0 y row d = (rowCells x0 y row).foldl hitCell d := by
  have h (cs : List Nat) : ∀ d, cs.foldl (drawPixel x0 y row) d =
      ((cs.filter (spriteBit row)).map fun c => cellIndex (x0 + c) y).foldl hitCell d := by
    induction cs with
    | nil => intro d; rfl
    | cons c cs ih =>
      intro d
      rw [List.foldl_cons, ih, drawPixel]
      cases hb : spriteBit row c <;> simp [hb, hitCell]
  exact h _ d

theorem drawRows_eq (x0 y : Nat) (rows : List Byte) (d : Drawing) :
    drawRows x0 y rows d = (spriteCells x0 y rows).foldl hitCell d := by
  induction rows generalizing y d with
  | nil => rfl
  | cons row rest ih => rw [drawRows, ih, drawRow_eq, spriteCells, List.foldl_append]

/-- A pass over distinct cells inverts exactly those, and collides when one of them was lit at the start. -/
theorem foldl_hitCell {ks : List Nat} (hn : ks.Nodup) (hk : ∀ k ∈ ks, k < 2048) (d : Drawing) :
    (∀ j, cellLit (ks.foldl hitCell d).gfx j = (cellLit d.gfx j ^^ decide (j ∈ ks))) ∧
    (ks.foldl hitCell d).collision = (d.collision || ks.any fun k => cellLit d.gfx k) := by
  induction ks generalizing d with
  | nil => simp
  | cons k ks ih =>
    obtain ⟨hnot, hn'⟩ := List.nodup_cons.mp hn
    have hk' : k < 2048 := hk k (by simp)
    obtain ⟨ihg, ihc⟩ := ih hn' (fun j hj => hk j (by simp [hj])) (hitCell d k)
    have hg (j : Nat) : cellLit (hitCell d k).gfx j = (cellLit d.gfx j ^^ decide (j = k)) :=
      cellLit_toggleCell d.gfx hk' j
    rw [List.foldl_cons]
    refine ⟨fun j => ?_, ?_⟩
    · rw [ihg, hg]
      by_cases hj : j = k
      · subst hj; simp [hnot]
      · simp [hj]
    · rw [ihc]
      have hany : (ks.any fun j => cellLit (hitCell d k).gfx j) = ks.any fun j => cellLit d.gfx j := by
        rw [Bool.eq_iff_iff]
        simp only [List.any_eq_true]
        refine exists_congr fun j => and_congr_right fun hj => ?_
        have : j ≠ k := by rintro rfl; exact hnot hj
        rw [hg]; simp [this]
      rw [hany, List.any_cons, hitCell, Bool.or_assoc]

theorem mem_rowCells {x0 y : Nat} {row : Byte} {k : Nat} :
    k ∈ rowCells x0 y row ↔ ∃ c, c < 8 ∧ spriteBit row c = true ∧ k = cellIndex (x0 + c) y := by
  simp only [rowCells, List.mem_map, List.mem_filter, List.mem_range, and_assoc, eq_comm]

/-- The cells of a sprite are those of its lit pixels, row `r` from byte `r` (R122). -/
theorem mem_spriteCells {x0 y : Nat} {rows : List Byte} {k : Nat} :
    k ∈ spriteCells x0 y rows ↔ ∃ r c, ∃ h : r < rows.length, c < 8 ∧ spriteBit rows[r] c = true ∧
      k = cellIndex (x0 + c) (y + r) := by
  induction rows generalizing y with
  | nil => simp [spriteCells]
  | cons row rest ih =>
    rw [spriteCells, List.mem_append, mem_rowCells, ih]
    constructor
    · rintro (⟨c, hc, hb, rfl⟩ | ⟨r, c, h, hc, hb, rfl⟩)
      · exact ⟨0, c, by simp, hc, hb, rfl⟩
      · exact ⟨r + 1, c, by simpa using h, hc, hb, by rw [show y + (r + 1) = y + 1 + r by omega]⟩
    · rintro ⟨r, c, h, hc, hb, rfl⟩
      cases r with
      | zero => exact .inl ⟨c, hc, hb, rfl⟩
      | succ r =>
        exact .inr ⟨r, c, by simpa using h, hc, hb, by rw [show y + (r + 1) = y + 1 + r by omega]⟩

theorem spriteCells_lt {x0 y : Nat} {rows : List Byte} {k : Nat} (h : k ∈ spriteCells x0 y rows) : k < 2048 := by
  obtain ⟨_, _, _, _, _, rfl⟩ := mem_spriteCells.mp h
  exact cellIndex_lt _ _

/-- A sprite of at most 32 rows covers no cell twice: its columns differ modulo 64 and its rows modulo 32. -/
theorem spriteCells_nodup {x0 y : Nat} {rows : List Byte} (h : rows.length ≤ 32) : (spriteCells x0 y rows).Nodup := by
  induction rows generalizing y with
  | nil => exact List.nodup_nil
  | cons row rest ih =>
    rw [List.length_cons] at h
    rw [spriteCells, List.nodup_append]
    refine ⟨?_, ih (by omega), fun j hj k hk => ?_⟩
    · refine ((List.nodup_range (n := 8)).filter _).map_on ?_
      intro a ha b hb he
      have ha := List.mem_range.mp (List.mem_filter.mp ha).1
      have hb := List.mem_range.mp (List.mem_filter.mp hb).1
      simp only [cellIndex, Config.screenH, Config.screenW] at he
      omega
    · obtain ⟨c, hc, _, rfl⟩ := mem_rowCells.mp hj
      obtain ⟨r, c', hr, hc', _, rfl⟩ := mem_spriteCells.mp hk
      simp only [cellIndex, Config.screenH, Config.screenW]
      omega

/-- What drawing a sprite does: it inverts its cells, and it collides when one of them was lit. -/
theorem drawSprite_spec (x y : Byte) {rows : List Byte} (g : Gfx) (h : rows.length ≤ 32) :
    (∀ j, cellLit (drawSprite x y rows g).gfx j =
      (cellLit g j ^^ decide (j ∈ spriteCells x.toNat y.toNat rows))) ∧
    (drawSprite x y rows g).collision = (spriteCells x.toNat y.toNat rows).any fun k => cellLit g k := by
  rw [drawSprite, drawRows_eq]
  simpa using foldl_hitCell (spriteCells_nodup h) (fun k hk => spriteCells_lt hk) { gfx := g, collision := false }

/-- Framebuffers with the same cells are equal. -/
theorem gfx_ext {g g' : Gfx} (h : ∀ k, k < 2048 → cellLit g k = cellLit g' k) : g = g' := by
  apply Vector.ext
  intro r hr
  apply BitVec.eq_of_getLsbD_eq
  intro c hc
  have := h (r * 64 + c) (by omega)
  simpa [cellLit, show r * 64 + c < 2048 by omega, show (r * 64 + c) / 64 = r by omega,
    show (r * 64 + c) % 64 = c by omega] using this

end Sys2Proof.Machine
end

