-- ==== Sys2Proof/Laws/Exec.lean ====
section
/-! SUPPORT. What a handler, a fetch and a step can do, each said once: later proofs cite these and unfold neither exec
nor step. -/

namespace Sys2Proof.Machine

/-- What no handler touches unless it raises. -/
structure HandlerFrame (s t : State) : Prop where
  fault : t.fault = s.fault
  events : t.events = s.events
  key : t.key = s.key
  opcode : t.opcode = s.opcode
  stepped : t.stepped = s.stepped
  params : t.params = s.params
  wf : Memory.wf s.params.font s.mem = true → Memory.wf t.params.font t.mem = true

theorem HandlerFrame.refl (s : State) : HandlerFrame s s := ⟨rfl, rfl, rfl, rfl, rfl, rfl, id⟩

/-- The stack operations answer a state or raise. -/
theorem pushStack_cases (s : State) (w : Word) :
    (∃ h : s.sp.val < 16, pushStack s w =
      .ok { s with stack := s.stack.set s.sp.val w, sp := ⟨s.sp.val + 1, Nat.succ_lt_succ h⟩ }) ∨
    (s.sp = 16 ∧ pushStack s w = .error ⟨.stackOverflow, 16⟩) := by
  by_cases h : s.sp.val < 16
  · exact .inl ⟨h, by simp [pushStack, h]⟩
  · refine .inr ⟨Fin.ext ?_, by simp [pushStack, h]⟩
    have := s.sp.isLt
    show s.sp.val = 16
    omega

theorem popStack_cases (s : State) :
    (s.sp.val ≠ 0 ∧ popStack s =
      .ok { s with
        sp := ⟨s.sp.val - 1, Nat.lt_of_le_of_lt (Nat.sub_le _ _) s.sp.isLt⟩
        pc := s.stack[s.sp.val - 1]'(by have := s.sp.isLt; omega) }) ∨
    (s.sp = 0 ∧ popStack s = .error ⟨.stackUnderflow, 0⟩) := by
  by_cases h : s.sp.val = 0
  · exact .inr ⟨Fin.ext h, by simp [popStack, h]⟩
  · exact .inl ⟨h, by simp [popStack, h]⟩

theorem keyNamed_cases (s : State) (k : Byte) :
    (∃ h : k.toNat < 16, keyNamed s k = .ok s.key[k.toNat]) ∨
    (15 < k.toNat ∧ keyNamed s k = .error ⟨.keyIndexOutOfRange, k.setWidth 17⟩) := by
  by_cases h : k.toNat < 16
  · exact .inl ⟨h, keyNamed_ok s h⟩
  · exact .inr ⟨by omega, keyNamed_error s (by omega)⟩

/-- What a fetch can do (30_encoding.md R93, 60_exceptions.md R256). -/
theorem fetchWord_cases (s : State) :
    (s.pc.toNat + 1 < 4096 ∧
      fetchWord s = .ok (wordOfBytes (s.readByte s.pc.toNat) (s.readByte (s.pc.toNat + 1)))) ∨
    (4096 ≤ s.pc.toNat + 1 ∧ fetchWord s = .error ⟨.fetchOutOfRange, addrInfo (max s.pc.toNat 4096)⟩) := by
  unfold fetchWord fetchByte
  simp only [Config.memSize]
  by_cases h : s.pc.toNat + 1 < 4096
  · exact .inl ⟨h, by simp [h, Nat.lt_of_succ_lt h]⟩
  · refine .inr ⟨by omega, ?_⟩
    by_cases h' : s.pc.toNat < 4096
    · have : s.pc.toNat = 4095 := by omega
      simp [this]
    · simp [h', Nat.max_eq_left (Nat.not_lt.mp h')]

theorem FetchesWord.fetch {s : State} {w : Word} (h : FetchesWord s w) : fetchWord s = .ok w := by
  rcases fetchWord_cases s with ⟨_, e⟩ | ⟨hp, _⟩
  · rw [e, h.2.2]
  · exact absurd h.2.1 (by omega)

/-- A step of a halted block. -/
theorem step_halted {s : State} (h : s.fault.halted = true) : step s = .next (haltedStep s) := by
  simp [step, h]

/-- A step whose word is an instruction. -/
theorem step_instr {s : State} {w : Word} {i : Instr} (h : FetchesWord s w) (hd : decodeWord w = some i) :
    step s = commit s (exec i (beginCycle w s)) := by
  simp [step, h.1, h.fetch, dispatchWord, hd]

/-- A step whose word is none. -/
theorem step_unimplemented {s : State} {w : Word} (h : FetchesWord s w) (hd : decodeWord w = none) :
    step s = .next (endCycle s (execUnimplemented (beginCycle w s))) := by
  simp [step, h.1, h.fetch, dispatchWord, hd, commit]

/-- A step whose fetch leaves memory. -/
theorem step_fetchFault {s : State} (h : s.fault.halted = false) (hp : 4096 ≤ s.pc.toNat + 1) :
    step s = .next (fetchFault ⟨.fetchOutOfRange, addrInfo (max s.pc.toNat 4096)⟩ s) := by
  rcases fetchWord_cases s with ⟨hlt, _⟩ | ⟨_, e⟩
  · exact absurd hlt (by omega)
  · simp [step, h, e]

/-- Everything a step can be. -/
theorem step_cases (s : State) :
    s.fault.halted = true ∨ (s.fault.halted = false ∧ 4096 ≤ s.pc.toNat + 1) ∨
    ∃ w, FetchesWord s w ∧ (decodeWord w = none ∨ ∃ i, decodeWord w = some i) := by
  cases hh : s.fault.halted
  · by_cases hp : s.pc.toNat + 1 < 4096
    · refine .inr (.inr ⟨_, ⟨hh, hp, rfl⟩, ?_⟩)
      cases decodeWord _
      · exact .inl rfl
      · exact .inr ⟨_, rfl⟩
    · exact .inr (.inl ⟨rfl, by omega⟩)
  · exact .inl rfl

/-! ### The handlers that can raise: the state each answers -/

theorem exec_call_ok (nnn : Addr12) {s : State} (h : s.sp.val < 16) :
    exec (.call nnn) s = .next { s with
      stack := s.stack.set s.sp.val s.pc, sp := ⟨s.sp.val + 1, Nat.succ_lt_succ h⟩, pc := immAddr nnn } := by
  rw [exec, execCall, pushStack, dif_pos h]
  rfl

theorem exec_ret_ok {s : State} (h : s.sp.val ≠ 0) :
    exec .ret s = .next { s with
      sp := ⟨s.sp.val - 1, Nat.lt_of_le_of_lt (Nat.sub_le _ _) s.sp.isLt⟩
      pc := s.stack[s.sp.val - 1]'(by have := s.sp.isLt; omega) } := by
  rw [exec, execRet, popStack, dif_neg h]
  rfl

theorem exec_skp_ok {x : Reg} {s : State} (h : (s.getV x).toNat < 16) :
    exec (.skp x) s = .next (skipIf s.key[(s.getV x).toNat] s) := by
  rw [exec, execSkp, keyNamed_ok s h]
  rfl

theorem exec_sknp_ok {x : Reg} {s : State} (h : (s.getV x).toNat < 16) :
    exec (.sknp x) s = .next (skipIf (!s.key[(s.getV x).toNat]) s) := by
  rw [exec, execSknp, keyNamed_ok s h]
  rfl

theorem exec_ldBVX_ok {x : Reg} {s : State} (h : s.I.toNat + 3 ≤ 4096) :
    exec (.ldBVX x) s = .next (s.writeAll s.I.toNat (bcdDigits (s.getV x))) := by
  rw [exec, execLdBVX, writeBytes_ok s (by right; exact h)]
  rfl

theorem exec_storeRegs_ok {x : Reg} {s : State} (h : s.I.toNat + (x.val + 1) ≤ 4096) :
    exec (.storeRegs x) s = .next (advanceIndex (s.writeAll s.I.toNat (regBlock s x)) x) := by
  rw [exec, execStoreRegs, writeBytes_ok s (by right; rw [regBlock_length]; exact h)]
  rfl

theorem exec_loadRegs_ok {x : Reg} {s : State} (h : s.I.toNat + (x.val + 1) ≤ 4096) :
    exec (.loadRegs x) s = .next
      (advanceIndex (setRegBlock s 0 ((List.range (x.val + 1)).map fun k => s.readByte (s.I.toNat + k))) x) := by
  rw [exec, execLoadRegs, baseAddr, readBytes_ok s (by right; exact h)]
  rfl

theorem exec_drw_ok {x y : Reg} {n : Nat} {s : State} (h : n = 0 ∨ s.I.toNat + n ≤ 4096) :
    exec (.drw x y n) s = .next (showDrawing s (drawSprite (s.getV x) (s.getV y)
      ((List.range n).map fun k => s.readByte (s.I.toNat + k)) s.gfx)) := by
  rw [exec, execDrw, baseAddr, readBytes_ok s h]
  rfl

/-! ### The handlers -/

theorem HandlerFrame.skipIf (c : Bool) (s : State) : HandlerFrame s (skipIf c s) := by
  rw [skipIf_eq]
  exact ⟨rfl, rfl, rfl, rfl, rfl, rfl, id⟩

theorem HandlerFrame.advanceIndex {s t : State} (h : HandlerFrame s t) (x : Reg) :
    HandlerFrame s (advanceIndex t x) := by
  rw [advanceIndex_eq]
  exact ⟨h.fault, h.events, h.key, h.opcode, h.stepped, h.params, h.wf⟩

theorem HandlerFrame.writeAll {s : State} {a : Nat} {bytes : List Byte}
    (h : bytes = [] ∨ a + bytes.length ≤ 4096) : HandlerFrame s (s.writeAll a bytes) := by
  have e := s.writeAll_frame a bytes
  refine ⟨?_, ?_, ?_, ?_, ?_, ?_, fun hw => ?_⟩
  case refine_7 =>
    have hp : (s.writeAll a bytes).params = s.params := by rw [e]
    rw [hp]
    exact s.wf_writeAll hw h
  all_goals rw [e]

theorem HandlerFrame.setRegBlock (s : State) (k : Nat) (bytes : List Byte) :
    HandlerFrame s (setRegBlock s k bytes) := by
  rw [setRegBlock_frame]
  exact ⟨rfl, rfl, rfl, rfl, rfl, rfl, id⟩

/-- A handler completes within its frame or takes a fault: it never stops. -/
theorem exec_cases (i : Instr) (s : State) :
    (∃ t, exec i s = .next t ∧ HandlerFrame s t) ∨ ∃ r, exec i s = .next (takeFault r s.instrAddr s) := by
  cases i with
  | cls | jp | ldI | jpV0 | ldNN | addNN | rnd | ldVY | orVY | andVY | xorVY | addVY | subVY | subnVY | shr | shl
  | ldVXDT | ldDTVX | ldSTVX | addIVX | ldFVX => exact .inl ⟨_, rfl, ⟨rfl, rfl, rfl, rfl, rfl, rfl, id⟩⟩
  | seNN | sneNN | seVY | sneVY => exact .inl ⟨_, rfl, HandlerFrame.skipIf _ s⟩
  | ldVXK x =>
    simp only [exec, execLdVXK]
    cases firstKey s <;> exact .inl ⟨_, rfl, ⟨rfl, rfl, rfl, rfl, rfl, rfl, id⟩⟩
  | ret =>
    rcases popStack_cases s with ⟨_, e⟩ | ⟨_, e⟩
    · refine .inl ⟨_, by rw [exec, execRet, e]; rfl, ?_⟩
      exact ⟨rfl, rfl, rfl, rfl, rfl, rfl, id⟩
    · exact .inr ⟨_, by rw [exec, execRet, e]; rfl⟩
  | call nnn =>
    rcases pushStack_cases s s.pc with ⟨_, e⟩ | ⟨_, e⟩
    · refine .inl ⟨_, by rw [exec, execCall, e]; rfl, ?_⟩
      exact ⟨rfl, rfl, rfl, rfl, rfl, rfl, id⟩
    · exact .inr ⟨_, by rw [exec, execCall, e]; rfl⟩
  | skp x =>
    rcases keyNamed_cases s (s.getV x) with ⟨_, e⟩ | ⟨_, e⟩
    · exact .inl ⟨_, by rw [exec, execSkp, e]; rfl, HandlerFrame.skipIf _ s⟩
    · exact .inr ⟨_, by rw [exec, execSkp, e]; rfl⟩
  | sknp x =>
    rcases keyNamed_cases s (s.getV x) with ⟨_, e⟩ | ⟨_, e⟩
    · exact .inl ⟨_, by rw [exec, execSknp, e]; rfl, HandlerFrame.skipIf _ s⟩
    · exact .inr ⟨_, by rw [exec, execSknp, e]; rfl⟩
  | ldBVX x =>
    rcases writeBytes_cases s (baseAddr s) (bcdDigits (s.getV x)) with ⟨h, e⟩ | ⟨_, e⟩
    · exact .inl ⟨_, by rw [exec, execLdBVX, e]; rfl, HandlerFrame.writeAll h⟩
    · exact .inr ⟨_, by rw [exec, execLdBVX, e]; rfl⟩
  | storeRegs x =>
    rcases writeBytes_cases s (baseAddr s) (regBlock s x) with ⟨h, e⟩ | ⟨_, e⟩
    · exact .inl ⟨_, by rw [exec, execStoreRegs, e]; rfl, (HandlerFrame.writeAll h).advanceIndex x⟩
    · exact .inr ⟨_, by rw [exec, execStoreRegs, e]; rfl⟩
  | loadRegs x =>
    rcases readBytes_cases s (baseAddr s) (x.val + 1) with ⟨_, e⟩ | ⟨_, e⟩
    · exact .inl ⟨_, by rw [exec, execLoadRegs, e]; rfl, (HandlerFrame.setRegBlock s 0 _).advanceIndex x⟩
    · exact .inr ⟨_, by rw [exec, execLoadRegs, e]; rfl⟩
  | drw x y n =>
    rcases readBytes_cases s (baseAddr s) n with ⟨_, e⟩ | ⟨_, e⟩
    · refine .inl ⟨_, by rw [exec, execDrw, e]; rfl, ?_⟩
      exact ⟨rfl, rfl, rfl, rfl, rfl, rfl, id⟩
    · exact .inr ⟨_, by rw [exec, execDrw, e]; rfl⟩

end Sys2Proof.Machine
end

