-- ==== Sys2Proof/Laws/PerInstr.lean ====
section
/-! SUPPORT. The family EncodeRow, one lemma per constructor: the word of a well-formed instruction lies in that
instruction's row of spec/opcode_table.json (30_encoding.md R101). -/

namespace Sys2Proof.Laws

open Sys2Proof

/-- A word lies in a row when its digits do. -/
theorem matches_of_digits {f x y n : Nibble} {mask pat : Word} (fm xm ym nm fp xp yp np : Nibble)
    (hm : mask = word4 fm xm ym nm) (hp : pat = word4 fp xp yp np) (hf : f &&& fm = fp) (hx : x &&& xm = xp)
    (hy : y &&& ym = yp) (hn : n &&& nm = np) : OpcodeRow.matches ⟨mask, pat⟩ (word4 f x y n) = true := by
  subst hm hp
  simp [OpcodeRow.matches, word4_and, *]

/-- `FNNN` lies in the row that fixes the family alone. -/
theorem matches_nnn (f : Nibble) (nnn : Addr12) {mask pat : Word} (hm : mask = word4 15 0 0 0)
    (hp : pat = word4 f 0 0 0) : OpcodeRow.matches ⟨mask, pat⟩ (wordNNN f nnn) = true := by
  rw [wordNNN_eq]
  exact matches_of_digits 15 0 0 0 f 0 0 0 hm hp BitVec.and_allOnes (by simp) (by simp) (by simp)

/-- `FXNN` lies in the row that fixes the family alone. -/
theorem matches_xnn (f x : Nibble) (nn : Byte) {mask pat : Word} (hm : mask = word4 15 0 0 0)
    (hp : pat = word4 f 0 0 0) : OpcodeRow.matches ⟨mask, pat⟩ (wordXNN f x nn) = true := by
  rw [wordXNN_eq]
  exact matches_of_digits 15 0 0 0 f 0 0 0 hm hp BitVec.and_allOnes (by simp) (by simp) (by simp)

/-- `FXss` lies in the row that fixes the family and the low byte. -/
theorem matches_low (f x : Nibble) (low : Byte) {mask pat : Word} (hm : mask = word4 15 0 15 15)
    (hp : pat = wordXNN f 0 low) : OpcodeRow.matches ⟨mask, pat⟩ (wordXNN f x low) = true := by
  rw [wordXNN_eq]
  exact matches_of_digits 15 0 15 15 f 0 _ _ hm (hp.trans (wordXNN_eq f 0 low)) BitVec.and_allOnes (by simp)
    BitVec.and_allOnes BitVec.and_allOnes

/-- `FXYN` lies in the row that fixes the family alone. -/
theorem matches_xyn (f x y n : Nibble) {mask pat : Word} (hm : mask = word4 15 0 0 0)
    (hp : pat = word4 f 0 0 0) : OpcodeRow.matches ⟨mask, pat⟩ (word4 f x y n) = true :=
  matches_of_digits 15 0 0 0 f 0 0 0 hm hp BitVec.and_allOnes (by simp) (by simp) (by simp)

/-- `FXYs` lies in the row that fixes the family and the low digit. -/
theorem matches_xys (f x y n : Nibble) {mask pat : Word} (hm : mask = word4 15 0 0 15)
    (hp : pat = word4 f 0 0 n) : OpcodeRow.matches ⟨mask, pat⟩ (word4 f x y n) = true :=
  matches_of_digits 15 0 0 15 f 0 0 n hm hp BitVec.and_allOnes (by simp) (by simp) BitVec.and_allOnes

/-- The word of a well-formed instruction lies in its row. -/
def EncodeRow.Statement (i : Instr) : Prop := i.WellFormed → (rowOf i).matches (encode i) = true

theorem EncodeRow.cls : EncodeRow.Statement .cls := fun _ => by decide

theorem EncodeRow.ret : EncodeRow.Statement .ret := fun _ => by decide

theorem EncodeRow.jp (nnn : Addr12) : EncodeRow.Statement (.jp nnn) :=
  fun _ => matches_nnn _ _ (by decide) (by decide)

theorem EncodeRow.call (nnn : Addr12) : EncodeRow.Statement (.call nnn) :=
  fun _ => matches_nnn _ _ (by decide) (by decide)

theorem EncodeRow.seNN (x : Reg) (nn : Byte) : EncodeRow.Statement (.seNN x nn) :=
  fun _ => matches_xnn _ _ _ (by decide) (by decide)

theorem EncodeRow.sneNN (x : Reg) (nn : Byte) : EncodeRow.Statement (.sneNN x nn) :=
  fun _ => matches_xnn _ _ _ (by decide) (by decide)

theorem EncodeRow.seVY (x y : Reg) : EncodeRow.Statement (.seVY x y) :=
  fun _ => matches_xyn _ _ _ _ (by decide) (by decide)

theorem EncodeRow.ldNN (x : Reg) (nn : Byte) : EncodeRow.Statement (.ldNN x nn) :=
  fun _ => matches_xnn _ _ _ (by decide) (by decide)

theorem EncodeRow.addNN (x : Reg) (nn : Byte) : EncodeRow.Statement (.addNN x nn) :=
  fun _ => matches_xnn _ _ _ (by decide) (by decide)

theorem EncodeRow.ldVY (x y : Reg) : EncodeRow.Statement (.ldVY x y) :=
  fun _ => matches_xys _ _ _ _ (by decide) (by decide)

theorem EncodeRow.orVY (x y : Reg) : EncodeRow.Statement (.orVY x y) :=
  fun _ => matches_xys _ _ _ _ (by decide) (by decide)

theorem EncodeRow.andVY (x y : Reg) : EncodeRow.Statement (.andVY x y) :=
  fun _ => matches_xys _ _ _ _ (by decide) (by decide)

theorem EncodeRow.xorVY (x y : Reg) : EncodeRow.Statement (.xorVY x y) :=
  fun _ => matches_xys _ _ _ _ (by decide) (by decide)

theorem EncodeRow.addVY (x y : Reg) : EncodeRow.Statement (.addVY x y) :=
  fun _ => matches_xys _ _ _ _ (by decide) (by decide)

theorem EncodeRow.subVY (x y : Reg) : EncodeRow.Statement (.subVY x y) :=
  fun _ => matches_xys _ _ _ _ (by decide) (by decide)

theorem EncodeRow.shr (x : Reg) : EncodeRow.Statement (.shr x) :=
  fun _ => matches_xys _ _ _ _ (by decide) (by decide)

theorem EncodeRow.subnVY (x y : Reg) : EncodeRow.Statement (.subnVY x y) :=
  fun _ => matches_xys _ _ _ _ (by decide) (by decide)

theorem EncodeRow.shl (x : Reg) : EncodeRow.Statement (.shl x) :=
  fun _ => matches_xys _ _ _ _ (by decide) (by decide)

theorem EncodeRow.sneVY (x y : Reg) : EncodeRow.Statement (.sneVY x y) :=
  fun _ => matches_xyn _ _ _ _ (by decide) (by decide)

theorem EncodeRow.ldI (nnn : Addr12) : EncodeRow.Statement (.ldI nnn) :=
  fun _ => matches_nnn _ _ (by decide) (by decide)

theorem EncodeRow.jpV0 (nnn : Addr12) : EncodeRow.Statement (.jpV0 nnn) :=
  fun _ => matches_nnn _ _ (by decide) (by decide)

theorem EncodeRow.rnd (x : Reg) (nn : Byte) : EncodeRow.Statement (.rnd x nn) :=
  fun _ => matches_xnn _ _ _ (by decide) (by decide)

theorem EncodeRow.drw (x y : Reg) (n : Nat) : EncodeRow.Statement (.drw x y n) :=
  fun _ => matches_xyn _ _ _ _ (by decide) (by decide)

theorem EncodeRow.skp (x : Reg) : EncodeRow.Statement (.skp x) :=
  fun _ => matches_low _ _ _ (by decide) (by decide)

theorem EncodeRow.sknp (x : Reg) : EncodeRow.Statement (.sknp x) :=
  fun _ => matches_low _ _ _ (by decide) (by decide)

theorem EncodeRow.ldVXDT (x : Reg) : EncodeRow.Statement (.ldVXDT x) :=
  fun _ => matches_low _ _ _ (by decide) (by decide)

theorem EncodeRow.ldVXK (x : Reg) : EncodeRow.Statement (.ldVXK x) :=
  fun _ => matches_low _ _ _ (by decide) (by decide)

theorem EncodeRow.ldDTVX (x : Reg) : EncodeRow.Statement (.ldDTVX x) :=
  fun _ => matches_low _ _ _ (by decide) (by decide)

theorem EncodeRow.ldSTVX (x : Reg) : EncodeRow.Statement (.ldSTVX x) :=
  fun _ => matches_low _ _ _ (by decide) (by decide)

theorem EncodeRow.addIVX (x : Reg) : EncodeRow.Statement (.addIVX x) :=
  fun _ => matches_low _ _ _ (by decide) (by decide)

theorem EncodeRow.ldFVX (x : Reg) : EncodeRow.Statement (.ldFVX x) :=
  fun _ => matches_low _ _ _ (by decide) (by decide)

theorem EncodeRow.ldBVX (x : Reg) : EncodeRow.Statement (.ldBVX x) :=
  fun _ => matches_low _ _ _ (by decide) (by decide)

theorem EncodeRow.storeRegs (x : Reg) : EncodeRow.Statement (.storeRegs x) :=
  fun _ => matches_low _ _ _ (by decide) (by decide)

theorem EncodeRow.loadRegs (x : Reg) : EncodeRow.Statement (.loadRegs x) :=
  fun _ => matches_low _ _ _ (by decide) (by decide)

end Sys2Proof.Laws
end

