-- ==== Sys2Proof/Tests/Slice0.lean ====
section
/-! SUPPORT. Tests and witnesses. Each test's expected result is a vector of 95_test_vectors.md, named in its comment
(A1 and so on), or worked out by hand from the rule it names. A witness theorem shows a concrete state and operands that
meet the hypotheses of one obligation, at the boundary values of its clauses. -/

namespace Sys2Proof.Tests

open Sys2Proof Sys2Proof.Machine

/-! ### Helpers -/

/-- The state one step on, with the word `w` placed where `s` fetches. -/
def after (s : State) (w : Nat) : State :=
  match step (s.withFetchWord 16 w) with
  | .next t => t
  | .fault _ => s
  | .refused _ => s

/-- The reset state with some registers set. -/
def withV (vs : List (Reg × Byte)) : State := vs.foldl (fun s p => s.setV p.1 p.2) State.reset

/-- The reset state with `I` and some bytes from there on set. -/
def atI (i : Word) (bytes : List Byte) : State := (State.reset.setI i).writeAll i.toNat bytes

/-- The reset state with one cell lit and the draw flag clear. -/
def lit (k : Nat) : State := { State.reset with gfx := toggleCell State.reset.gfx k, drawFlag := false }

/-- The reset state with both timers set. -/
def timed (dt st : Byte) : State := { State.reset with DT := dt, ST := st }

/-- The reset state at another `pc`. -/
def atPc (a : Word) : State := { State.reset with pc := a }

/-- The reset state with a stack of the given depth whose top holds `top`. -/
def deep (n : Fin 17) (top : Word) : State :=
  { State.reset with sp := n, stack := State.reset.stack.setIfInBounds (n.val - 1) top }

/-- The reset state of a machine that advances `I` on block transfers. -/
def advancing : State := State.resetWith { Config.defaultParams with indexIncrementOnBlock := true }

/-- The bytes read from an address on. -/
def bytesFrom (s : State) (a n : Nat) : List Byte := (List.range n).map fun k => s.readByte (a + k)

/-- The four fields of the fault record. -/
def record (s : State) : Bool × Nat × Nat × Nat :=
  (s.fault.halted, s.fault.cause.toNat, s.fault.pc.toNat, s.fault.info.toNat)

/-! ### Well-formedness -/

/-- R92: `N` is a count from 0 to 15. -/
theorem test_wf_refuses_16_rows : ¬ (Instr.drw 0 0 16).WellFormed ∧ (Instr.drw 0 0 15).WellFormed := by decide

/-! ### Decoding: each word written out bit by bit from the patterns of R91 and R94 to R98 -/

theorem test_decode_family0 :
    decodeWord 0b0000000011100000 = some .cls ∧ decodeWord 0b0000000011101110 = some .ret ∧
    decodeWord 0b0000001111100000 = some .cls ∧ decodeWord 0b0000000100100011 = none := by decide

theorem test_decode_jumps :
    decodeWord 0b0001101010111100 = some (.jp 0xABC) ∧ decodeWord 0b0010001100000001 = some (.call 0x301) ∧
    decodeWord 0b1011111111111110 = some (.jpV0 0xFFE) := by decide

theorem test_decode_skips :
    decodeWord 0b0011000101000010 = some (.seNN 1 0x42) ∧ decodeWord 0b0100111110000001 = some (.sneNN 15 0x81) ∧
    decodeWord 0b0101000100100000 = some (.seVY 1 2) ∧ decodeWord 0b1001000100100001 = some (.sneVY 1 2) := by decide

theorem test_decode_immediate :
    decodeWord 0b0110101001000010 = some (.ldNN 10 0x42) ∧ decodeWord 0b0111101011111111 = some (.addNN 10 0xFF) ∧
    decodeWord 0b1100000101111111 = some (.rnd 1 0x7F) := by decide

theorem test_decode_family8_low :
    decodeWord 0b1000000100100000 = some (.ldVY 1 2) ∧ decodeWord 0b1000000100100001 = some (.orVY 1 2) ∧
    decodeWord 0b1000000100100010 = some (.andVY 1 2) ∧ decodeWord 0b1000000100100011 = some (.xorVY 1 2) ∧
    decodeWord 0b1000000100100100 = some (.addVY 1 2) ∧ decodeWord 0b1000000100100101 = some (.subVY 1 2) := by decide

theorem test_decode_family8_high :
    decodeWord 0b1000000100100110 = some (.shr 1) ∧ decodeWord 0b1000000100100111 = some (.subnVY 1 2) ∧
    decodeWord 0b1000000100101110 = some (.shl 1) ∧ decodeWord 0b1000000100101000 = none ∧
    decodeWord 0b1000000100101101 = none ∧ decodeWord 0b1000000100101111 = none := by decide

theorem test_decode_index_and_draw :
    decodeWord 0b1010000100100011 = some (.ldI 0x123) ∧ decodeWord 0b1101000100101111 = some (.drw 1 2 15) := by decide

theorem test_decode_familyE :
    decodeWord 0b1110000110011110 = some (.skp 1) ∧ decodeWord 0b1110000110100001 = some (.sknp 1) ∧
    decodeWord 0b1110000111110000 = none := by decide

theorem test_decode_familyF_timers :
    decodeWord 0b1111000100000111 = some (.ldVXDT 1) ∧ decodeWord 0b1111000100001010 = some (.ldVXK 1) ∧
    decodeWord 0b1111000100010101 = some (.ldDTVX 1) ∧ decodeWord 0b1111000100011000 = some (.ldSTVX 1) ∧
    decodeWord 0b1111000111111111 = none := by decide

theorem test_decode_familyF_memory :
    decodeWord 0b1111000100011110 = some (.addIVX 1) ∧ decodeWord 0b1111000100101001 = some (.ldFVX 1) ∧
    decodeWord 0b1111000100110011 = some (.ldBVX 1) ∧ decodeWord 0b1111000101010101 = some (.storeRegs 1) ∧
    decodeWord 0b1111000101100101 = some (.loadRegs 1) := by decide

/-- R64, R90: the byte at the lower address is the high one, and two bytes are consumed. -/
theorem test_decode_bytes : decode [0x6A, 0x42, 0x99] = .ok (.ldNN 10 0x42, [0x99]) ∧
    decode [0x6A] = .error .tooShort ∧ decode [0x81, 0x28] = .error (.unimplemented 0x8128) := by decide

/-- The table's numbering, for an instruction of one word. -/
theorem test_decode_table_word : decodeTableWord 16 0xF165 = some (.loadRegs 1) ∧ decodeTableWord 16 0x0000 = none := by
  decide

/-! ### Register and ALU instructions -/

/-- A1. -/
theorem test_ldNN : (after .reset 0x6A42).getV 10 = 0x42 ∧ (after .reset 0x6A42).pc = 0x202 := by decide

/-- A2. -/
theorem test_addNN : (after (withV [(10, 2), (15, 5)]) 0x7AFF).V = (withV [(10, 1), (15, 5)]).V := by decide

/-- A3. -/
theorem test_ldVY : (after (withV [(2, 9)]) 0x8120).V = (withV [(1, 9), (2, 9)]).V := by decide

/-- A4. -/
theorem test_orVY : (after (withV [(1, 0xF0), (2, 0x0F), (15, 7)]) 0x8121).V =
    (withV [(1, 0xFF), (2, 0x0F), (15, 7)]).V := by decide

/-- A5. -/
theorem test_andVY : (after (withV [(1, 0xF0), (2, 0x3C)]) 0x8122).V = (withV [(1, 0x30), (2, 0x3C)]).V := by decide

/-- A6. -/
theorem test_xorVY : (after (withV [(1, 0xF0), (2, 0x3C)]) 0x8123).V = (withV [(1, 0xCC), (2, 0x3C)]).V := by decide

/-- L1-3. -/
theorem test_addVY_carry : (after (withV [(1, 0xFF), (2, 1)]) 0x8124).V = (withV [(2, 1), (15, 1)]).V := by decide

/-- A16. -/
theorem test_addVY_into_flag : (after (withV [(15, 0xFF), (2, 2)]) 0x8F24).V = (withV [(2, 2), (15, 1)]).V := by decide

/-- L1-4. -/
theorem test_subVY_borrow : (after (withV [(1, 5), (2, 10)]) 0x8125).V = (withV [(1, 0xFB), (2, 10)]).V := by decide

/-- A17. -/
theorem test_subVY_from_flag : (after (withV [(1, 3), (15, 5)]) 0x81F5).V = (withV [(1, 0xFE)]).V := by decide

/-- A11. -/
theorem test_shr : (after (withV [(1, 4), (2, 0xFF), (15, 1)]) 0x8126).V = (withV [(1, 2), (2, 0xFF)]).V := by decide

/-- A18. -/
theorem test_shr_flag : (after (withV [(15, 3)]) 0x8F06).V = (withV []).V := by decide

/-- A12. -/
theorem test_subnVY : (after (withV [(1, 10), (2, 5)]) 0x8127).V = (withV [(1, 0xFB), (2, 5)]).V := by decide

/-- A14. -/
theorem test_shl : (after (withV [(1, 0x81)]) 0x812E).V = (withV [(1, 2), (15, 1)]).V := by decide

/-- A20. -/
theorem test_shl_flag : (after (withV [(15, 0xC1)]) 0x8F0E).V = (withV [(15, 2)]).V := by decide

/-- A22: for every `rand8`. -/
theorem test_rnd_zero_mask : (after (withV [(1, 7)]) 0xC100).getV 1 = 0 := BitVec.and_zero

/-- R181: the byte drawn, under the mask. -/
theorem test_rnd : (after .reset 0xC17F).getV 1 = Config.rand8 0 &&& 0x7F ∧ (after .reset 0xC17F).draws = 1 :=
  ⟨rfl, rfl⟩

/-! ### Control transfer -/

/-- F1. -/
theorem test_jp : (after .reset 0x1ABC).pc = 0xABC := by decide

/-- F3. -/
theorem test_call : (after .reset 0x2300).stack[0] = 0x202 ∧ (after .reset 0x2300).sp = 1 ∧
    (after .reset 0x2300).pc = 0x300 := by decide

/-- F4. -/
theorem test_call_overflow : record (after (deep 16 0) 0x2300) = (true, 1, 0x200, 16) ∧
    (after (deep 16 0) 0x2300).pc = 0x200 ∧ (after (deep 16 0) 0x2300).events = [.fault .stackOverflow] := by decide

/-- F5, F7. -/
theorem test_ret : (after (deep 1 0x206) 0x0AEE).pc = 0x206 ∧ (after (deep 1 0x206) 0x0AEE).sp = 0 ∧
    (after (deep 1 0x206) 0x0AEE).stack[0] = 0x206 := by decide

/-- F6. -/
theorem test_ret_underflow : record (after .reset 0x00EE) = (true, 2, 0x200, 0) := by decide

/-- F8, F9. -/
theorem test_seNN : (after (withV [(1, 0x42)]) 0x3142).pc = 0x204 ∧ (after (withV [(1, 0x41)]) 0x3142).pc = 0x202 := by
  decide

/-- F10, F11. -/
theorem test_sneNN : (after (withV [(1, 0x42)]) 0x4142).pc = 0x202 ∧
    (after (withV [(1, 0x41)]) 0x4142).pc = 0x204 := by decide

/-- F13. -/
theorem test_seVY : (after (withV [(1, 7), (2, 7)]) 0x5127).pc = 0x204 ∧ (after (withV [(1, 7)]) 0x5120).pc = 0x202 := by
  decide

/-- F14, F15. -/
theorem test_sneVY : (after (withV [(1, 7), (2, 8)]) 0x9120).pc = 0x204 ∧
    (after (withV [(1, 7), (2, 7)]) 0x9121).pc = 0x202 := by decide

/-- F16, F17. -/
theorem test_jpV0 : (after (withV [(0, 0x10)]) 0xB300).pc = 0x310 ∧ (after (withV [(0, 0xFF)]) 0xBFFF).pc = 0x10FE := by
  decide

/-! ### Index register and memory -/

/-- I1. -/
theorem test_ldI : (after .reset 0xA123).I = 0x123 := by decide

/-- I2. -/
theorem test_addIVX : (after ((withV [(1, 2), (15, 9)]).setI 0xFFFF) 0xF11E).I = 1 ∧
    (after ((withV [(1, 2), (15, 9)]).setI 0xFFFF) 0xF11E).getV 15 = 9 := by decide

/-- I4, I5. -/
theorem test_ldFVX : (after (withV [(1, 0x10)]) 0xF129).I = 0x50 ∧ (after (withV [(1, 0xFF)]) 0xF129).I = 0x4FB := by
  decide

/-- I6. -/
theorem test_ldBVX : bytesFrom (after ((withV [(1, 0xFE)]).setI 0x300) 0xF133) 0x2FF 5 = [0, 2, 5, 4, 0] := by decide

/-- I9: neither byte that was in range is written. -/
theorem test_ldBVX_out_of_range : record (after ((withV [(1, 0xFE)]).setI 0xFFE) 0xF133) = (true, 5, 0x200, 0x1000) ∧
    bytesFrom (after ((withV [(1, 0xFE)]).setI 0xFFE) 0xF133) 0xFFE 2 = [0, 0] := by decide

/-- I10. -/
theorem test_storeRegs : bytesFrom (after ((withV [(0, 1), (1, 2), (2, 3), (3, 4)]).setI 0x300) 0xF255) 0x300 4 =
    [1, 2, 3, 0] ∧ (after ((withV [(0, 1)]).setI 0x300) 0xF255).I = 0x300 := by decide

/-- I11, and I14. -/
theorem test_storeRegs_advance : (after (advancing.setI 0x300) 0xF255).I = 0x303 ∧
    record (after ((withV [(0, 1), (1, 2)]).setI 0xFFF) 0xF155) = (true, 5, 0x200, 0x1000) := by decide

/-- I15, with `V[3]` to show that registers above X stay. -/
theorem test_loadRegs : (after ((atI 0x300 [2, 5, 4, 6]).setV 3 9) 0xF265).V =
    (withV [(0, 2), (1, 5), (2, 4), (3, 9)]).V := by decide

/-- I18, and I16. -/
theorem test_loadRegs_out_of_range : record (after ((withV [(0, 0x11)]).setI 0xFF8) 0xFF65) = (true, 4, 0x200, 0x1000) ∧
    (after ((withV [(0, 0x11)]).setI 0xFF8) 0xFF65).getV 0 = 0x11 ∧ (after (advancing.setI 0x300) 0xF265).I = 0x303 := by
  decide

/-! ### Display -/

/-- D2. -/
theorem test_cls : (after (lit 5) 0x03E0).gfx = State.reset.gfx ∧ (after (lit 5) 0x03E0).drawFlag = true := by decide

/-- D6: the wrap in both directions; cell 2048 - 64 is 1984. -/
theorem test_drw_wraps : (after ((atI 0x300 [0xC0, 0xC0]).setV 1 63 |>.setV 2 31) 0xD122).gfx =
    toggleCell (toggleCell (toggleCell (toggleCell State.reset.gfx 2047) 1984) 63) 0 := by decide

/-- D10: a collision, with bit 7 the leftmost pixel. -/
theorem test_drw_collides : (after ((lit 0).setI 0x300 |>.writeAll 0x300 [0x81]) 0xD121).gfx = (lit 7).gfx ∧
    (after ((lit 0).setI 0x300 |>.writeAll 0x300 [0x81]) 0xD121).getV 15 = 1 := by decide

/-! ### Keys and timers -/

/-- The reset state with keys 3, 5 and 9 pressed and `V[1] = 3`. -/
def keyed : State := (((withV [(1, 3)]).keyEvent 3 true).keyEvent 9 true).keyEvent 5 true

/-- K1, K2. -/
theorem test_skp : (after keyed 0xE19E).pc = 0x204 ∧ (after (withV [(1, 3)]) 0xE19E).pc = 0x202 := by decide

/-- K5. -/
theorem test_skp_out_of_range : record (after { timed 2 0 with V := (withV [(1, 16)]).V } 0xE19E) = (true, 6, 0x200, 16) ∧
    (after { timed 2 0 with V := (withV [(1, 16)]).V } 0xE19E).DT = 2 := by decide

/-- K3, K4. -/
theorem test_sknp : (after keyed 0xE1A1).pc = 0x202 ∧ (after (withV [(1, 3)]) 0xE1A1).pc = 0x204 := by decide

/-- K6. -/
theorem test_sknp_out_of_range : record (after (withV [(1, 0xFF)]) 0xE1A1) = (true, 6, 0x200, 255) := by decide

/-- K7. -/
theorem test_ldVXDT : (after (timed 5 0) 0xF107).getV 1 = 5 ∧ (after (timed 5 0) 0xF107).DT = 4 := by decide

/-- K9, with key 3 let go. -/
theorem test_ldVXK : (after (keyed.keyEvent 3 false) 0xF10A).getV 1 = 5 ∧
    (after (keyed.keyEvent 3 false) 0xF10A).pc = 0x202 := by decide

/-- L1-8. -/
theorem test_ldVXK_waits : (after { timed 3 0 with pc := 0x204 } 0xF10A).pc = 0x204 ∧
    (after { timed 3 0 with pc := 0x204 } 0xF10A).DT = 2 := by decide

/-- K10, K12. -/
theorem test_ldDTVX : (after (withV [(1, 5)]) 0xF115).DT = 4 ∧ (after (timed 7 0) 0xF115).DT = 0 := by decide

/-- K14. -/
theorem test_ldSTVX_tone : (after (withV [(1, 1)]) 0xF118).ST = 0 ∧
    (after (withV [(1, 1)]) 0xF118).events = [.toneEnd] := by decide

/-- K16. -/
theorem test_ldSTVX_silences : (after (timed 0 1) 0xF118).ST = 0 ∧ (after (timed 0 1) 0xF118).events = [] := by decide

/-! ### The cycle, reset and load -/

/-- A23: the state but for `opcode`, `pc`, `DT` and the model's own fields is unchanged. -/
theorem test_unimplemented : after (timed 3 0) 0x8128 = { (timed 3 0).withFetchWord 16 0x8128 with
    opcode := 0x8128, pc := 0x202, DT := 2, events := [.unimplemented 0x8128 0x200], stepped := true } := by decide

/-- F18, F19: the two fetch faults. -/
theorem test_fetch_faults : step (atPc 0x1000) = .next { atPc 0x1000 with
      fault := ⟨true, 3, 0x1000, 0x1000⟩, events := [.fault .fetchOutOfRange], stepped := true } ∧
    step (atPc 0xFFF) = .next { atPc 0xFFF with
      fault := ⟨true, 3, 0xFFF, 0x1000⟩, events := [.fault .fetchOutOfRange], stepped := true } := ⟨rfl, rfl⟩

/-- F20: an odd `pc`. -/
theorem test_odd_pc : (after (atPc 0x201) 0x6107).getV 1 = 7 ∧ (after (atPc 0x201) 0x6107).pc = 0x203 := by decide

/-- F22. -/
theorem test_halted : step { State.reset with fault := ⟨true, 1, 0x200, 16⟩, DT := 5, events := [.toneEnd] } =
    .next { State.reset with fault := ⟨true, 1, 0x200, 16⟩, DT := 5 } := rfl

/-- K17. -/
theorem test_timers : (after (timed 1 1) 0x6000).DT = 0 ∧ (after (timed 1 1) 0x6000).ST = 0 ∧
    (after (timed 1 1) 0x6000).events = [.toneEnd] := by decide

/-- R1 of L2-R, at both ends of the font. -/
theorem test_reset : State.reset.pc = 0x200 ∧ State.reset.drawFlag = true ∧
    bytesFrom State.reset 0 5 = [0xF0, 0x90, 0x90, 0x90, 0xF0] ∧ bytesFrom State.reset 78 3 = [0x80, 0x80, 0] := by decide

/-- R2 of L2-R, and L1-9. -/
theorem test_load : State.load [] State.reset = .fault .loadError ∧
    State.load [0x12] State.reset = .next { State.reset with mem := [(0x200, 0x12)] } := ⟨rfl, rfl⟩

/-- R4 of L2-R, the first step. -/
theorem test_step_of_reset : step State.reset = .next { State.reset with
    pc := 0x202, events := [.unimplemented 0 0x200], stepped := true } := rfl

/-- R37, R265: all 16 flags are written, the ones that were set included. -/
theorem test_key_in : (keyed.keyIn (Vector.replicate 16 false)).key = State.reset.key ∧
    (State.reset.keyIn keyed.key).key = keyed.key := by decide

/-- R75. -/
theorem test_load_after_step : State.load [0x12] (after .reset 0x6000) = .refused .loadAfterStep := rfl

/-! ### Witnesses -/

/-- Every row's pattern meets the hypothesis of its `DecodesAs`. -/
theorem witness_DecodesAs : opcodeTable.all (fun r => r.pat &&& r.mask == r.pat) = true := by decide

/-- A carry just missed and just made; a destination other than `V[F]` exists. -/
theorem witness_AddRegistersSetsCarry : (1 : Reg) ≠ VF ∧
    ((withV [(1, 0xFE), (2, 1)]).getV 1).toNat + ((withV [(1, 0xFE), (2, 1)]).getV 2).toNat = 255 ∧
    ((withV [(1, 0xFF), (2, 1)]).getV 1).toNat + ((withV [(1, 0xFF), (2, 1)]).getV 2).toNat = 256 := by decide

/-- Equal operands, and a minuend one less. -/
theorem witness_SubtractSetsNoBorrow : (1 : Reg) ≠ VF ∧ (withV [(1, 7), (2, 7)]).getV 1 = (withV [(1, 7), (2, 7)]).getV 2 ∧
    ((withV [(1, 6), (2, 7)]).getV 1).toNat + 1 = ((withV [(1, 6), (2, 7)]).getV 2).toNat := by decide

/-- The same two cases the other way round. -/
theorem witness_ReverseSubtractSetsNoBorrow : (1 : Reg) ≠ VF ∧
    ((withV [(1, 8), (2, 7)]).getV 2).toNat + 1 = ((withV [(1, 8), (2, 7)]).getV 1).toNat := by decide

/-- Both destinations of a right shift. -/
theorem witness_ShiftRightFlagsThenHalves : (14 : Reg) ≠ VF ∧ (15 : Reg) = VF := by decide

/-- Both destinations of a left shift. -/
theorem witness_ShiftLeftFlagsThenDoubles : (0 : Reg) ≠ VF ∧ (15 : Reg) = VF := by decide

/-- A step that takes a random byte. -/
theorem witness_RandomByteUnderMask : ∃ t, exec (.rnd 1 0x7F) State.reset = .next t ∧ t.draws ≠ State.reset.draws :=
  ⟨_, rfl, by decide⟩

/-- No row at any `I`, fifteen rows that end at the last byte of memory, and one past it. -/
theorem witness_DrawInvertsCoveredCells : (0 ≤ 15 ∧ (0 = 0 ∨ (State.reset.setI 0xFFFF).I.toNat + 0 ≤ 4096)) ∧
    (15 ≤ 15 ∧ (15 = 0 ∨ (State.reset.setI 0xFF1).I.toNat + 15 ≤ 4096)) ∧
    (0 < 15 ∧ 4096 < (State.reset.setI 0xFF2).I.toNat + 15) := by decide

/-- A covered lit cell, and a cell that no pixel covers. -/
theorem witness_DrawInvertsCoveredCells_cells :
    (Covers (lit 0) 1 2 1 0 ∧ cellLit (lit 0).gfx 0 = true) ∧ ¬ Covers (lit 0) 1 2 0 5 :=
  ⟨⟨⟨0, 0, by decide, by decide, by decide, by decide⟩, by decide⟩, fun ⟨_, _, h, _⟩ => absurd h (Nat.not_lt_zero _)⟩

/-- A draw that leaves its coordinate registers as they were. -/
theorem witness_DrawTwiceRestoresScreen : ∃ t, exec (.drw 1 2 5) State.reset = .next t ∧
    t.getV 1 = State.reset.getV 1 ∧ t.getV 2 = State.reset.getV 2 := ⟨_, rfl, by decide, by decide⟩

/-- The compared values equal and different. -/
theorem witness_SkipImmediateComparesRegister : (withV [(1, 0x42)]).getV 1 = 0x42 ∧ (withV [(1, 0x43)]).getV 1 ≠ 0x42 := by
  decide

/-- The compared registers equal and different. -/
theorem witness_SkipRegisterComparesRegisters : (withV [(1, 7), (2, 7)]).getV 1 = (withV [(1, 7), (2, 7)]).getV 2 ∧
    (withV [(1, 7)]).getV 1 ≠ (withV [(1, 7)]).getV 2 := by decide

/-- The sixteenth call, and the seventeenth. -/
theorem witness_CallPushesReturnAddress : (deep 15 0).sp.val < 16 ∧ (deep 16 0).sp.val = 16 := by decide

/-- The last return, and one too many. -/
theorem witness_ReturnPopsAddress : 0 < (deep 1 0x206).sp.val ∧ (deep 0 0).sp.val = 0 := by decide

/-- One free entry, and another entry below it. -/
theorem witness_CallThenReturnRoundTrip : (deep 15 0).sp.val < 16 ∧ 14 < 16 ∧ 14 ≠ (deep 15 0).sp.val := by decide

/-- The three bytes end at the last one of memory, and one past it. -/
theorem witness_BcdStoresDecimalDigits : Memory.wf State.reset.params.font (State.reset.setI 0xFFD).mem = true ∧
    (State.reset.setI 0xFFD).I.toNat + 2 < 4096 ∧ 4096 ≤ (State.reset.setI 0xFFE).I.toNat + 2 := by decide

/-- The block ends at the last byte, and one past it; the parameter both ways. -/
theorem witness_StoreBlockWritesRegisters : Memory.wf State.reset.params.font (State.reset.setI 0xFF0).mem = true ∧
    (State.reset.setI 0xFF0).I.toNat + (15 : Reg).val < 4096 ∧ 4096 ≤ (State.reset.setI 0xFF1).I.toNat + (15 : Reg).val ∧
    State.reset.params.indexIncrementOnBlock = false ∧ advancing.params.indexIncrementOnBlock = true := by decide

/-- The same for a load; a register above X exists and one at X. -/
theorem witness_LoadBlockReadsRegisters : (State.reset.setI 0xFFF).I.toNat + (0 : Reg).val < 4096 ∧
    4096 ≤ (State.reset.setI 0x1000).I.toNat + (0 : Reg).val ∧ (0 : Reg) < 1 ∧ (0 : Reg) ≤ 0 := by decide

/-- The largest key pressed and not pressed, and the smallest number that is no key. -/
theorem witness_SkipOnKeyTestsLevel : ((withV [(1, 15)]).getV 1).toNat < 16 ∧
    ((withV [(1, 15)]).keyEvent 15 true).key[15] = true ∧ (withV [(1, 15)]).key[15] = false ∧
    15 < ((withV [(1, 16)]).getV 1).toNat := by decide

/-- A fetched FX07. -/
theorem witness_ReadDelayTimerBeforeCount : FetchesWord ((timed 5 0).withFetchWord 16 0xF107) 0xF107 ∧
    decodeWord 0xF107 = some (.ldVXDT 1) := ⟨⟨by decide, by decide, by decide⟩, by decide⟩

/-- Only the last key pressed; none pressed, with a fetched FX0A. -/
theorem witness_WaitForKeyTakesLowestOrRewinds :
    ((State.reset.keyEvent 15 true).key[(15 : Reg).val] = true ∧
      ∀ j : Reg, j < 15 → (State.reset.keyEvent 15 true).key[j.val] = false) ∧
    (∀ k : Reg, (State.reset.withFetchWord 16 0xF10A).key[k.val] = false) ∧
    FetchesWord (State.reset.withFetchWord 16 0xF10A) 0xF10A ∧ decodeWord 0xF10A = some (.ldVXK 1) :=
  ⟨by decide, by decide, ⟨by decide, by decide, by decide⟩, by decide⟩

/-- A fetched FX15. -/
theorem witness_SetDelayTimerLosesOneCount : FetchesWord (State.reset.withFetchWord 16 0xF115) 0xF115 ∧
    decodeWord 0xF115 = some (.ldDTVX 1) := ⟨⟨by decide, by decide, by decide⟩, by decide⟩

/-- A fetched FX18, with the value that ends the tone at once and with one that does not. -/
theorem witness_SetSoundTimerLosesOneCount : FetchesWord ((withV [(1, 1)]).withFetchWord 16 0xF118) 0xF118 ∧
    decodeWord 0xF118 = some (.ldSTVX 1) ∧ ((withV [(1, 1)]).getV 1).toNat = 1 ∧ ((withV [(1, 2)]).getV 1).toNat ≠ 1 :=
  ⟨⟨by decide, by decide, by decide⟩, by decide, by decide, by decide⟩

/-- The four boundary lengths. -/
theorem witness_LoadWritesProgramVerbatim : State.reset.stepped = false ∧
    Memory.wf State.reset.params.font State.reset.mem = true ∧ 0 < [(0 : Byte)].length ∧
    (List.replicate 3584 (0 : Byte)).length ≤ 3584 ∧ ([] : List Byte).length = 0 ∧
    3584 < (List.replicate 3585 (0 : Byte)).length :=
  ⟨rfl, by decide, by decide, Nat.le_of_eq List.length_replicate, rfl, by rw [List.length_replicate]; decide⟩

/-- A step of a running block. -/
theorem witness_LoadAfterStepIsRefused : State.reset.fault.halted = false ∧ ∃ t, step State.reset = .next t :=
  ⟨rfl, _, rfl⟩

/-- The first code that is no key, the last that is one, and another key; a step with the draw flag set, and one of a halted
block. -/
theorem witness_HostPortsActBetweenCycles : (16 ≤ 16 ∧ 15 < 16 ∧ 14 < 16 ∧ 14 ≠ 15) ∧
    (State.reset.drawFlag = true ∧ ∃ t, step State.reset = .next t) ∧
    (after .reset 0x00EE).fault.halted = true ∧ ∃ t, step (after .reset 0x00EE) = .next t :=
  ⟨by decide, ⟨by decide, _, rfl⟩, by decide, _, rfl⟩

/-- The invariant at reset, and in a state halted by a stack underflow. -/
theorem witness_StepKeepsInvariant : Inv State.reset ∧ Inv (after .reset 0x00EE) ∧ ∃ t, step State.reset = .next t :=
  ⟨⟨by decide, by decide, fun h => absurd h (by decide), by decide, by decide⟩,
    ⟨by decide, by decide, fun _ => ⟨.stackUnderflow, by decide⟩, by decide, by decide⟩, _, rfl⟩

/-- The same two states. -/
theorem witness_RunNeverStopsAndKeepsInvariant : Inv State.reset ∧ Inv (after .reset 0x00EE) :=
  ⟨witness_StepKeepsInvariant.1, witness_StepKeepsInvariant.2.1⟩

/-- A word at the last address a fetch can succeed at; the handler completes, and another one raises. -/
theorem witness_StepRunsDecodedInstruction :
    ((atPc 0xFFE).withFetchWord 16 0xD12F).fault.halted = false ∧ (atPc 0xFFE).pc.toNat + 1 < 4096 ∧
    (Instr.drw 1 2 15).WellFormed ∧
    decode [((atPc 0xFFE).withFetchWord 16 0xD12F).readByte 0xFFE, ((atPc 0xFFE).withFetchWord 16 0xD12F).readByte 0xFFF] =
      .ok (.drw 1 2 15, []) ∧
    (after (atPc 0xFFE) 0xD12F).fault.halted = false ∧ (after (atPc 0xFFE) 0x00EE).fault.halted = true := by decide

/-- A fetched word of a gap, with the sound timer about to end and not. -/
theorem witness_UnimplementedWordIsReported : FetchesWord ((timed 0 1).withFetchWord 16 0xE1F0) 0xE1F0 ∧
    decodeWord 0xE1F0 = none ∧ (timed 0 1).ST = 1 ∧ (timed 0 2).ST ≠ 1 :=
  ⟨⟨by decide, by decide, by decide⟩, by decide, by decide, by decide⟩

/-- A halted block. -/
theorem witness_HaltedBlockDoesNothing : (after .reset 0x00EE).fault.halted = true := by decide

/-- The first address of either clause. -/
theorem witness_FetchOutsideMemoryFaults : State.reset.fault.halted = false ∧ 4096 ≤ (atPc 0x1000).pc.toNat ∧
    (atPc 0xFFF).pc.toNat = 4095 := by decide

/-- A running block that faults. -/
theorem witness_FaultIsPrecise : State.reset.fault.halted = false ∧
    ∃ t, step (State.reset.withFetchWord 16 0x00EE) = .next t ∧ t.fault.halted = true := ⟨rfl, _, rfl, by decide⟩

/-- An instruction at the boundary of its condition: it raises, and it does not. -/
theorem witness_OnlyTableConditionsFault :
    raiseOf (.storeRegs 15) (State.reset.setI 0xFF1) = some ⟨.writeOutOfRange, 4096⟩ ∧
    raiseOf (.storeRegs 15) (State.reset.setI 0xFF0) = none := by decide

/-- A cycle that completes with the sound timer at 1, and one that faults. -/
theorem witness_TimersCountOncePerCycle : FetchesWord ((timed 1 1).withFetchWord 16 0x6000) 0x6000 ∧
    decodeWord 0x6000 = some (.ldNN 0 0) ∧ (after (timed 1 1) 0x6000).fault.halted = false ∧
    (after (timed 1 1) 0x00EE).fault.halted = true := ⟨⟨by decide, by decide, by decide⟩, by decide, by decide, by decide⟩

/-- A halted block, a cycle that faults, and each of the four outputs of one that does not. -/
theorem witness_StepOutputHasSpecShape : (after .reset 0x00EE).fault.halted = true ∧ State.reset.fault.halted = false ∧
    (after .reset 0x6000).events = [] ∧ (after (timed 0 1) 0x6000).events = [.toneEnd] ∧
    (after .reset 0xE1F0).events = [.unimplemented 0xE1F0 0x200] ∧
    (after (timed 0 1) 0xE1F0).events = [.unimplemented 0xE1F0 0x200, .toneEnd] := by decide

/-- Well-formed instructions at the ends of the row count. -/
theorem witness_DecodeEncodeRoundTrip : (Instr.drw 15 15 15).WellFormed ∧ (Instr.drw 0 0 0).WellFormed := by decide

/-- A word with bits that no handler examines. -/
theorem witness_DecodedWordMatchesEncoding : decodeWord 0x5127 = some (.seVY 1 2) ∧ encode (.seVY 1 2) = 0x5120 := by decide

/-- A word of a row, and a word of none. -/
theorem witness_EveryWordMatchesOneRowOrNone : decodeWord 0x8126 = some (.shr 1) ∧ decodeWord 0x8128 = none := by decide

/-- A byte that FX33 changes and a byte that FX55 changes, each the last of its block. -/
theorem witness_OnlyBcdAndStoreWriteMemory :
    (∃ t, exec (.ldBVX 1) ((withV [(1, 9)]).setI 0x300) = .next t ∧
      t.readByte 0x302 ≠ ((withV [(1, 9)]).setI 0x300).readByte 0x302) ∧
    ∃ t, exec (.storeRegs 1) ((withV [(1, 9)]).setI 0x300) = .next t ∧
      t.readByte 0x301 ≠ ((withV [(1, 9)]).setI 0x300).readByte 0x301 := ⟨⟨_, rfl, by decide⟩, _, rfl, by decide⟩

/-- A destination that changes, and a flag that does. -/
theorem witness_OnlyListedInstructionsWriteRegisters : ∃ t, exec (.addVY 1 2) (withV [(1, 0xFF), (2, 1)]) = .next t ∧
    t.getV 1 ≠ (withV [(1, 0xFF), (2, 1)]).getV 1 ∧ t.getV 15 ≠ (withV [(1, 0xFF), (2, 1)]).getV 15 :=
  ⟨_, rfl, by decide, by decide⟩

/-- An `I` that ANNN changes, and one that FX65 advances. -/
theorem witness_OnlyListedInstructionsWriteIndex :
    (∃ t, exec (.ldI 0x123) State.reset = .next t ∧ t.I ≠ State.reset.I) ∧
    ∃ t, exec (.loadRegs 0) advancing = .next t ∧ t.I ≠ advancing.I := ⟨⟨_, rfl, by decide⟩, _, rfl, by decide⟩

/-- A call that changes `pc`, a stack entry and `sp`, and a return that changes `sp`. -/
theorem witness_OnlyListedInstructionsTransferControl :
    (∃ t, exec (.call 0x300) State.reset = .next t ∧ t.pc ≠ State.reset.pc ∧ t.stack[0] ≠ State.reset.stack[0] ∧
      t.sp ≠ State.reset.sp) ∧
    ∃ t, exec .ret (deep 1 0x206) = .next t ∧ t.sp ≠ (deep 1 0x206).sp :=
  ⟨⟨_, rfl, by decide, by decide, by decide⟩, _, rfl, by decide⟩

/-- A screen that 00E0 changes. -/
theorem witness_OnlyDisplayInstructionsDraw : State.reset.drawFlag = true ∧
    ∃ t, exec .cls (lit 5) = .next t ∧ t.gfx ≠ (lit 5).gfx ∧ t.drawFlag ≠ (lit 5).drawFlag :=
  ⟨rfl, _, rfl, by decide, by decide⟩

/-- A step that completes, and one that faults. -/
theorem witness_OpcodeLatchIsNeverRead : (after .reset 0x6000).fault.halted = false ∧
    (after .reset 0x00EE).fault.halted = true := by decide

/-- The last address a word can be placed at. -/
theorem witness_PlacedWordIsFetched : Memory.wf State.reset.params.font (atPc 0xFFE).mem = true ∧
    (atPc 0xFFE).fault.halted = false ∧ (atPc 0xFFE).pc.toNat + 1 < 4096 := by decide

end Sys2Proof.Tests
end

section
/-! PROOFS. What the decoder reads of a word known under a mask (30_encoding.md R91, R101), for the masks of
spec/opcode_table.json: each examines a field wholly or not at all. -/

namespace Sys2Proof

theorem fieldF_eq_of_masked {w mask pat : Word} (hw : w &&& mask = pat) (hmask : fieldF mask = BitVec.allOnes 4) :
    fieldF w = fieldF pat := by
  rw [← hw, fieldF_and, hmask, BitVec.and_allOnes]

theorem fieldNN_eq_of_masked {w mask pat : Word} (hw : w &&& mask = pat) (hmask : fieldNN mask = BitVec.allOnes 8) :
    fieldNN w = fieldNN pat := by
  rw [← hw, fieldNN_and, hmask, BitVec.and_allOnes]

/-- A word of family 0 goes to the family 0 switch (R94). -/
theorem decodeWord_family0 {w : Word} (hF : fieldF w = 0) : decodeWord w = decodeFamily0 w := by
  simp [decodeWord, hF]

end Sys2Proof
end

section
/-! PROOFS. Display instructions (40_display.md). -/

namespace Sys2Proof.Machine

/-- The words of row 00E0: `op[11:8]` is not examined (30_encoding.md R96, R99). -/
theorem decodesAs_cls : DecodesAs 0xF0FF 0x00E0 (fun _ => .cls) := by
  intro w hw
  have hF : fieldF w = 0 := fieldF_eq_of_masked hw (by decide)
  have hNN : fieldNN w = 0xE0 := fieldNN_eq_of_masked hw (by decide)
  rw [decodeWord_family0 hF]
  simp [decodeFamily0, hNN]

theorem exec_cls (s : State) : exec .cls s = .next (s.setGfx (Vector.replicate 32 0)) := rfl

/-- Settles O11: the handler's one write is `setGfx` of the blank framebuffer, which sets the draw flag as well. -/
theorem clearScreenZeroesEveryCell : Obligations.ClearScreenZeroesEveryCell := by
  refine ⟨decodesAs_cls, fun s => ⟨s.setGfx (Vector.replicate 32 0), exec_cls s, ?_, ?_, ?_, ?_⟩⟩
  · exact fun k _ => cellLit_clear k
  · exact State.setGfx_drawFlag s _
  · rfl
  · exact State.setGfx_readByte s _

end Sys2Proof.Machine
end

section
/-! PROOFS. Control transfer (41_flow.md): the jump to an immediate address and the skips that compare with NN. -/

namespace Sys2Proof.Machine

/-- A row of the primary table: the mask 0xF000 examines the family alone (30_encoding.md R94). -/
theorem decodesAs_of_family {pat : Word} {f : Word → Instr}
    (h : ∀ w, fieldF w = fieldF pat → decodeWord w = some (f w)) : DecodesAs 0xF000 pat f :=
  fun w hw => h w (fieldF_eq_of_masked hw (by decide))

/-! ### What a write of `pc` and a skip do -/

theorem onlyPc_setPc (s : State) (w : Word) : OnlyPc s (s.setPc w) := ⟨rfl, State.setPc_readByte s w⟩

theorem onlyPc_skipIf (c : Bool) (s : State) : OnlyPc s (skipIf c s) := by
  refine ⟨?_, skipIf_readByte s c⟩
  rw [skipIf_pc, skipIf_eq]

theorem skipIf_true_pc_toNat (s : State) : (skipIf true s).pc.toNat = (s.pc.toNat + 2) % 65536 := by
  rw [skipIf_pc, if_pos rfl, BitVec.toNat_add]
  rfl

theorem skipIf_false (s : State) : skipIf false s = s := rfl

/-- An instruction whose handler is a skip, with `p` saying when it skips and `q` when it does not. -/
theorem exec_skip_spec {i : Instr} {s : State} {c : Bool} {p q : Prop} (he : exec i s = .next (skipIf c s))
    (hp : p → c = true) (hq : q → c = false) :
    ∃ t, exec i s = .next t ∧ OnlyPc s t ∧ (p → t.pc.toNat = (s.pc.toNat + 2) % 65536) ∧ (q → t.pc = s.pc) := by
  refine ⟨skipIf c s, he, onlyPc_skipIf c s, fun h => ?_, fun h => ?_⟩
  · rw [hp h, skipIf_true_pc_toNat]
  · rw [hq h, skipIf_false]

/-! ### 1NNN -/

theorem decodesAs_jp : DecodesAs 0xF000 0x1000 (fun w => .jp (fieldNNN w)) :=
  decodesAs_of_family fun w (hF : fieldF w = 1) => by simp [decodeWord, hF]

theorem exec_jp (nnn : Addr12) (s : State) : exec (.jp nnn) s = .next (s.setPc (immAddr nnn)) := rfl

/-- Zero extension keeps the value of NNN. -/
theorem immAddr_toNat (nnn : Addr12) : (immAddr nnn).toNat = nnn.toNat :=
  BitVec.toNat_setWidth_of_le (by decide)

/-- Settles O14: the handler's one write is `pc`, to NNN zero-extended. -/
theorem jumpGoesToImmediate : Obligations.JumpGoesToImmediate :=
  ⟨decodesAs_jp, fun nnn s => ⟨_, exec_jp nnn s, immAddr_toNat nnn, onlyPc_setPc s _⟩⟩

/-! ### 3XNN and 4XNN -/

theorem decodesAs_seNN : DecodesAs 0xF000 0x3000 (fun w => .seNN (fieldX w) (fieldNN w)) :=
  decodesAs_of_family fun w (hF : fieldF w = 3) => by simp [decodeWord, hF]

theorem decodesAs_sneNN : DecodesAs 0xF000 0x4000 (fun w => .sneNN (fieldX w) (fieldNN w)) :=
  decodesAs_of_family fun w (hF : fieldF w = 4) => by simp [decodeWord, hF]

theorem exec_seNN (x : Reg) (nn : Byte) (s : State) :
    exec (.seNN x nn) s = .next (skipIf (s.getV x == nn) s) := rfl

theorem exec_sneNN (x : Reg) (nn : Byte) (s : State) :
    exec (.sneNN x nn) s = .next (skipIf (s.getV x != nn) s) := rfl

/-- Settles O16: both handlers are a skip, on opposite outcomes of one comparison. -/
theorem skipImmediateComparesRegister : Obligations.SkipImmediateComparesRegister := by
  refine ⟨decodesAs_seNN, decodesAs_sneNN, fun x nn s => ⟨?_, ?_⟩⟩
  · exact exec_skip_spec (exec_seNN x nn s) beq_iff_eq.mpr beq_eq_false_iff_ne.mpr
  · exact exec_skip_spec (exec_sneNN x nn s) bne_iff_ne.mpr bne_eq_false_iff_eq.mpr

end Sys2Proof.Machine
end

section
/-! PROOFS. Register and ALU instructions (42_alu.md): the writes of one register that leave `V[F]` alone. -/

namespace Sys2Proof

theorem fieldN_eq_of_masked {w mask pat : Word} (hw : w &&& mask = pat) (hmask : fieldN mask = BitVec.allOnes 4) :
    fieldN w = fieldN pat := by
  rw [← hw, fieldN_and, hmask, BitVec.and_allOnes]

/-- A word of family 8 goes to the secondary table (30_encoding.md R94, R95). -/
theorem decodeWord_family8 {w : Word} (hF : fieldF w = 8) : decodeWord w = decodeFamily8 w := by
  simp [decodeWord, hF]

@[simp] theorem trunc8_toNat (n : Nat) : (trunc8 n).toNat = n % 256 := BitVec.toNat_ofNat n 8

end Sys2Proof

namespace Sys2Proof.Machine

/-- A row of the secondary table: the mask 0xF00F examines the family and the low digit (R95). -/
theorem decodesAs_of_family8 {pat : Word} {f : Word → Instr} (hpat : fieldF pat = 8)
    (h : ∀ w, fieldN w = fieldN pat → decodeFamily8 w = some (f w)) : DecodesAs 0xF00F pat f := by
  intro w hw
  have hF : fieldF w = 8 := (fieldF_eq_of_masked hw (by decide)).trans hpat
  rw [decodeWord_family8 hF]
  exact h w (fieldN_eq_of_masked hw (by decide))

/-! ### What a write of one register does -/

theorem onlyRegs_setV (s : State) (x : Reg) (b : Byte) : OnlyRegs [x] s (s.setV x b) :=
  ⟨rfl, fun _ hr => State.getV_setV_ne s b (List.ne_of_not_mem_cons hr), State.setV_readByte s x b⟩

/-! ### 6XNN -/

theorem decodesAs_ldNN : DecodesAs 0xF000 0x6000 (fun w => .ldNN (fieldX w) (fieldNN w)) :=
  decodesAs_of_family fun w (hF : fieldF w = 6) => by simp [decodeWord, hF]

theorem exec_ldNN (x : Reg) (nn : Byte) (s : State) : exec (.ldNN x nn) s = .next (s.setV x nn) := rfl

/-- Settles O1: the handler's one write is `V[X]`, to NN. -/
theorem loadImmediateWritesRegister : Obligations.LoadImmediateWritesRegister :=
  ⟨decodesAs_ldNN, fun x nn s =>
    ⟨_, exec_ldNN x nn s, State.getV_setV_self s x nn, onlyRegs_setV s x nn⟩⟩

/-! ### 7XNN -/

theorem decodesAs_addNN : DecodesAs 0xF000 0x7000 (fun w => .addNN (fieldX w) (fieldNN w)) :=
  decodesAs_of_family fun w (hF : fieldF w = 7) => by simp [decodeWord, hF]

theorem exec_addNN (x : Reg) (nn : Byte) (s : State) :
    exec (.addNN x nn) s = .next (s.setV x (trunc8 ((s.getV x).toNat + nn.toNat))) := rfl

/-- Settles O2: the handler's one write is `V[X]`, to the truncated sum; `V[F]` is in the frame unless `X = F`. -/
theorem addImmediateWrapsWithoutFlag : Obligations.AddImmediateWrapsWithoutFlag := by
  refine ⟨decodesAs_addNN, fun x nn s => ⟨_, exec_addNN x nn s, ?_, onlyRegs_setV s x _⟩⟩
  rw [State.getV_setV_self, trunc8_toNat]

/-! ### 8XY0 -/

theorem decodesAs_ldVY : DecodesAs 0xF00F 0x8000 (fun w => .ldVY (fieldX w) (fieldY w)) :=
  decodesAs_of_family8 (by decide) fun w (hN : fieldN w = 0) => by simp [decodeFamily8, hN]

theorem exec_ldVY (x y : Reg) (s : State) : exec (.ldVY x y) s = .next (s.setV x (s.getV y)) := rfl

/-- Settles O3: the handler's one write is `V[X]`, to the `V[Y]` read before it. -/
theorem copyRegisterWritesRegister : Obligations.CopyRegisterWritesRegister :=
  ⟨decodesAs_ldVY, fun x y s =>
    ⟨_, exec_ldVY x y s, State.getV_setV_self s x _, onlyRegs_setV s x _⟩⟩

end Sys2Proof.Machine
end

section
/-! PROOFS. Index instructions (43_index_memory.md): the loads of `I` with an immediate and with a font address. -/

namespace Sys2Proof

/-- A word of family F goes to the family F switch (30_encoding.md R94, R98). -/
theorem decodeWord_familyF {w : Word} (hF : fieldF w = 0xF) : decodeWord w = decodeFamilyF w := by
  simp [decodeWord, hF]

@[simp] theorem trunc16_toNat (n : Nat) : (trunc16 n).toNat = n % 65536 := BitVec.toNat_ofNat n 16

end Sys2Proof

namespace Sys2Proof.Machine

/-- A row of the family F switch: the mask 0xF0FF examines the family and the low byte (R98). -/
theorem decodesAs_of_familyF {pat : Word} {f : Word → Instr} (hpat : fieldF pat = 0xF)
    (h : ∀ w, fieldNN w = fieldNN pat → decodeFamilyF w = some (f w)) : DecodesAs 0xF0FF pat f := by
  intro w hw
  have hF : fieldF w = 0xF := (fieldF_eq_of_masked hw (by decide)).trans hpat
  rw [decodeWord_familyF hF]
  exact h w (fieldNN_eq_of_masked hw (by decide))

/-! ### What a write of `I` does -/

theorem onlyIndex_setI (s : State) (w : Word) : OnlyIndex s (s.setI w) := ⟨rfl, State.setI_readByte s w⟩

/-! ### ANNN -/

theorem decodesAs_ldI : DecodesAs 0xF000 0xA000 (fun w => .ldI (fieldNNN w)) :=
  decodesAs_of_family fun w (hF : fieldF w = 0xA) => by simp [decodeWord, hF]

theorem exec_ldI (nnn : Addr12) (s : State) : exec (.ldI nnn) s = .next (s.setI (immAddr nnn)) := rfl

/-- Settles O21: the handler's one write is `I`, to NNN zero-extended. -/
theorem loadIndexSetsAddress : Obligations.LoadIndexSetsAddress :=
  ⟨decodesAs_ldI, fun nnn s => ⟨_, exec_ldI nnn s, immAddr_toNat nnn, onlyIndex_setI s _⟩⟩

/-! ### FX29 -/

theorem decodesAs_ldFVX : DecodesAs 0xF0FF 0xF029 (fun w => .ldFVX (fieldX w)) :=
  decodesAs_of_familyF (by decide) fun w (hNN : fieldNN w = 0x29) => by simp [decodeFamilyF, hNN]

theorem exec_ldFVX (x : Reg) (s : State) :
    exec (.ldFVX x) s = .next (s.setI (trunc16 ((s.getV x).toNat * 5))) := rfl

/-- Five times a byte is at most 255 * 5 = 0x4FB (R212), so truncation to 16 bits keeps it. -/
theorem trunc16_byte_mul_five_toNat (b : Byte) : (trunc16 (b.toNat * 5)).toNat = b.toNat * 5 := by
  have hb : b.toNat < 256 := b.isLt
  rw [trunc16_toNat, Nat.mod_eq_of_lt (by omega)]

/-- Settles O23: the handler's one write is `I`, to five times the whole byte `V[X]`, which fits in 16 bits. -/
theorem fontAddressIsFiveTimesDigit : Obligations.FontAddressIsFiveTimesDigit :=
  ⟨decodesAs_ldFVX, fun x s =>
    ⟨_, exec_ldFVX x s, trunc16_byte_mul_five_toNat (s.getV x), onlyIndex_setI s _⟩⟩

end Sys2Proof.Machine
end

section
/-! PROOFS. Key and timer instructions (44_keys_timers.md): the read of the delay timer and the wait for a key. -/

namespace Sys2Proof.Machine

/-! ### The end of a cycle that raises nothing -/

/-- A timer counts one down and stays at zero (R260, R261). -/
theorem countDown_toNat (t : Byte) : (countDown t).toNat = t.toNat - 1 := by
  by_cases h : t = 0
  · simp [countDown, h]
  · have hpos : t.toNat ≠ 0 := fun h0 => h (BitVec.eq_of_toNat_eq h0)
    rw [countDown, if_neg h]
    bv_omega

/-- A running block's cycle whose handler leaves the fault record clear ends with the Timer Step (R93). -/
theorem step_eq_timerStep {s t : State} {w : Word} {i : Instr} (h : FetchesWord s w) (hd : decodeWord w = some i)
    (he : exec i (beginCycle w s) = .next t) (hf : t.fault = s.fault) : step s = .next (timerStep t) := by
  have hrun : s.fault.halted = false := h.1
  have hend : endCycle s t = timerStep t := by simp [endCycle, hf, hrun]
  rw [step_instr h hd, he, commit, hend]

/-! ### FX07 -/

theorem decodesAs_ldVXDT : DecodesAs 0xF0FF 0xF007 (fun w => .ldVXDT (fieldX w)) :=
  decodesAs_of_familyF (by decide) fun w (hNN : fieldNN w = 0x07) => by simp [decodeFamilyF, hNN]

theorem exec_ldVXDT (x : Reg) (s : State) : exec (.ldVXDT x) s = .next (s.setV x s.DT) := rfl

/-- Settles O28: the handler's one write is `V[X]`, to the `DT` that the Timer Step counts down after it. -/
theorem readDelayTimerBeforeCount : Obligations.ReadDelayTimerBeforeCount := by
  refine ⟨decodesAs_ldVXDT, fun x s => ⟨_, exec_ldVXDT x s, ?_, onlyRegs_setV s x _⟩, fun x w s hfetch hd => ?_⟩
  · exact State.getV_setV_self s x _
  · refine ⟨_, step_eq_timerStep hfetch hd (exec_ldVXDT x _) rfl, ?_, ?_⟩
    · exact State.getV_setV_self _ x s.DT
    · exact countDown_toNat s.DT

/-! ### FX0A -/

theorem decodesAs_ldVXK : DecodesAs 0xF0FF 0xF00A (fun w => .ldVXK (fieldX w)) :=
  decodesAs_of_familyF (by decide) fun w (hNN : fieldNN w = 0x0A) => by simp [decodeFamilyF, hNN]

theorem exec_ldVXK_of_firstKey_some (x : Reg) {s : State} {k : Reg} (h : firstKey s = some k) :
    exec (.ldVXK x) s = .next (s.setV x (trunc8 k.val)) := by
  rw [exec, execLdVXK, h]

theorem exec_ldVXK_of_firstKey_none (x : Reg) {s : State} (h : firstKey s = none) :
    exec (.ldVXK x) s = .next (s.setPc (s.pc - 2)) := by
  rw [exec, execLdVXK, h]

/-- The scan depends on the keys alone, and no part of fetching a word presses one. -/
theorem firstKey_beginCycle (w : Word) (s : State) : firstKey (beginCycle w s) = firstKey s := rfl

/-- A key's index fits in a byte. -/
theorem trunc8_reg_toNat (k : Reg) : (trunc8 k.val).toNat = k.val := by
  have hk : k.val < 16 := k.isLt
  rw [trunc8_toNat, Nat.mod_eq_of_lt (by omega)]

/-- The rewind is the advance of the fetch undone, modulo 65536. -/
theorem sub_two_toNat_add_two (pc : Word) : ((pc - 2).toNat + 2) % 65536 = pc.toNat := by bv_omega

/-- Settles O29: the key scan answers the lowest pressed key, or none when none is pressed; then the rewind undoes the
advance of `pc` and only the Timer Step is left of the cycle. -/
theorem waitForKeyTakesLowestOrRewinds : Obligations.WaitForKeyTakesLowestOrRewinds := by
  refine ⟨decodesAs_ldVXK, fun x s => ⟨fun k hk hlow => ?_, fun hnone => ?_⟩, fun x w s hfetch hd hnone => ?_⟩
  · have hscan : firstKey s = some k := firstKey_eq_some.mpr ⟨hk, hlow⟩
    refine ⟨_, exec_ldVXK_of_firstKey_some x hscan, ?_, onlyRegs_setV s x _⟩
    rw [State.getV_setV_self, trunc8_reg_toNat]
  · have hscan : firstKey s = none := firstKey_eq_none.mpr hnone
    exact ⟨_, exec_ldVXK_of_firstKey_none x hscan, sub_two_toNat_add_two s.pc, onlyPc_setPc s _⟩
  · have hscan : firstKey (beginCycle w s) = none := (firstKey_beginCycle w s).trans (firstKey_eq_none.mpr hnone)
    refine ⟨_, step_eq_timerStep hfetch hd (exec_ldVXK_of_firstKey_none x hscan) rfl, ?_, rfl, ?_, ?_⟩
    · exact BitVec.add_sub_cancel s.pc 2
    · exact countDown_toNat s.DT
    · exact countDown_toNat s.ST

end Sys2Proof.Machine
end

section
/-! PROOFS. Reset (70_reset_and_hazards.md R300): how memory and the register file read in the reset state. -/

namespace Sys2Proof.Machine

/-! ### What an unlisted address reads as -/

theorem Memory.background_of_lt (font : Config.Font) {a : Nat} (h : a < Config.fontSize) :
    Memory.background font a = font[a] := dif_pos h

theorem Memory.background_of_le (font : Config.Font) {a : Nat} (h : Config.fontSize ≤ a) :
    Memory.background font a = 0 := dif_neg (Nat.not_lt.mpr h)

/-! ### The accessors in the reset state -/

/-- Reset lists no byte, so every address reads as unlisted. -/
theorem State.resetWith_readByte (p : Config.Params) (a : Nat) :
    (State.resetWith p).readByte a = Memory.background p.font a := Memory.read_nil p.font a

theorem State.resetWith_getV (p : Config.Params) (r : Reg) : (State.resetWith p).getV r = 0 :=
  Vector.getElem_replicate r.isLt

/-- Settles O32: reset memory lists nothing and so reads as `FONT` and 0, the registers, the stack, the cells and the keys
are replicated zeros, and every scalar field is its reset value by definition. -/
theorem resetPutsEveryElement : Obligations.ResetPutsEveryElement := by
  intro p
  refine ⟨fun a h => ?_, fun a h => ?_, State.resetWith_getV p, rfl, rfl, fun j h => ?_, rfl, rfl, rfl, ?_,
    fun k h => ?_, rfl, rfl, rfl⟩
  · rw [State.resetWith_readByte, Memory.background_of_lt p.font h]
  · rw [State.resetWith_readByte, Memory.background_of_le p.font h]
  · exact Vector.getElem_replicate h
  · exact cellLit_clear
  · exact Vector.getElem_replicate h

end Sys2Proof.Machine
end

section
/-! PROOFS. What a handler writes and what a step can answer, each said once; the rules about the whole machine (the
invariant, the faults, what may write what) are read off the two. -/

namespace Sys2Proof.Machine

/-! ### What a handler that completes writes -/

/-- The state an instruction that raises nothing leaves, one constructor a kind of write. -/
inductive Effect (i : Instr) (s : State) : State → Prop where
  /-- Registers the instruction may write. -/
  | regs (v : Vector Byte 16) (hv : ∀ r : Reg, v[r.val] ≠ s.V[r.val] → mayWriteReg i r = true) :
      Effect i s { s with V := v }
  /-- CXNN, the one draw. -/
  | random (x : Reg) (nn b : Byte) (hi : i = .rnd x nn) : Effect i s (s.nextDraw.setV x b)
  /-- `pc` alone. -/
  | jump (a : Word) (hi : mayWritePc i = true) : Effect i s (s.setPc a)
  /-- 2NNN below the stack's depth. -/
  | push (nnn : Addr12) (hi : i = .call nnn) (h : s.sp.val < 16) : Effect i s { s with
      stack := s.stack.set s.sp.val s.pc, sp := ⟨s.sp.val + 1, Nat.succ_lt_succ h⟩, pc := immAddr nnn }
  /-- 00EE with a live entry. -/
  | pop (a : Word) (hi : i = .ret) (h : s.sp.val ≠ 0) : Effect i s { s with
      sp := ⟨s.sp.val - 1, Nat.lt_of_le_of_lt (Nat.sub_le _ _) s.sp.isLt⟩, pc := a }
  /-- `I` alone. -/
  | index (w : Word) (hi : (∃ nnn, i = .ldI nnn) ∨ ∃ x, i = .addIVX x ∨ i = .ldFVX x) : Effect i s (s.setI w)
  /-- FX15. -/
  | delay (x : Reg) (hi : i = .ldDTVX x) : Effect i s (s.setDT (s.getV x))
  /-- FX18. -/
  | sound (x : Reg) (hi : i = .ldSTVX x) : Effect i s (s.setST (s.getV x))
  /-- 00E0. -/
  | clear (g : Gfx) (hi : i = .cls) : Effect i s (s.setGfx g)
  /-- DXYN. -/
  | draw (x y : Reg) (n : Nat) (d : Drawing) (hi : i = .drw x y n) : Effect i s (showDrawing s d)
  /-- FX33 inside memory. -/
  | storeDigits (x : Reg) (hi : i = .ldBVX x) (hm : s.I.toNat + 3 ≤ 4096) :
      Effect i s (s.writeAll s.I.toNat (bcdDigits (s.getV x)))
  /-- FX55 inside memory. -/
  | storeBlock (x : Reg) (hi : i = .storeRegs x) (hm : s.I.toNat + (x.val + 1) ≤ 4096) :
      Effect i s (advanceIndex (s.writeAll s.I.toNat (regBlock s x)) x)
  /-- FX65 inside memory. -/
  | loadBlock (x : Reg) (bytes : List Byte) (hi : i = .loadRegs x) (hl : bytes.length = x.val + 1) :
      Effect i s (advanceIndex (setRegBlock s 0 bytes) x)

theorem Effect.setV {i : Instr} {s : State} {x : Reg} (b : Byte) (h : mayWriteReg i x = true) :
    Effect i s (s.setV x b) := by
  refine .regs _ fun r hr => ?_
  have hrx : r = x := by
    by_contra hne
    exact hr (s.getV_setV_ne b hne)
  rwa [hrx]

/-- Two writes in a row: a result and a flag. -/
theorem Effect.setV_setV {i : Instr} {s : State} {x y : Reg} (b c : Byte) (hx : mayWriteReg i x = true)
    (hy : mayWriteReg i y = true) : Effect i s ((s.setV x b).setV y c) := by
  refine .regs _ fun r hr => ?_
  by_cases hrx : r = x
  · rwa [hrx]
  · by_cases hry : r = y
    · rwa [hry]
    · exact absurd (((s.setV x b).getV_setV_ne c hry).trans (s.getV_setV_ne b hrx)) hr

theorem Effect.skipIf {i : Instr} {s : State} (c : Bool) (h : mayWritePc i = true) : Effect i s (skipIf c s) := by
  rw [skipIf_eq]
  exact .jump _ h

/-! ### The handlers that can raise: the fault each takes (60_exceptions.md R250) -/

theorem exec_ret_error {s : State} (h : s.sp.val = 0) :
    exec .ret s = .next (takeFault ⟨.stackUnderflow, 0⟩ s.instrAddr s) := by
  rw [exec, execRet, popStack, dif_pos h]
  rfl

theorem exec_call_error (nnn : Addr12) {s : State} (h : ¬ s.sp.val < 16) :
    exec (.call nnn) s = .next (takeFault ⟨.stackOverflow, 16⟩ s.instrAddr s) := by
  rw [exec, execCall, pushStack, dif_neg h]
  rfl

theorem exec_skp_error {x : Reg} {s : State} (h : 15 < (s.getV x).toNat) :
    exec (.skp x) s = .next (takeFault ⟨.keyIndexOutOfRange, BitVec.ofNat 17 (s.getV x).toNat⟩ s.instrAddr s) := by
  rw [exec, execSkp, keyNamed_error s h, ← BitVec.ofNat_toNat]
  rfl

theorem exec_sknp_error {x : Reg} {s : State} (h : 15 < (s.getV x).toNat) :
    exec (.sknp x) s = .next (takeFault ⟨.keyIndexOutOfRange, BitVec.ofNat 17 (s.getV x).toNat⟩ s.instrAddr s) := by
  rw [exec, execSknp, keyNamed_error s h, ← BitVec.ofNat_toNat]
  rfl

theorem exec_ldBVX_error {x : Reg} {s : State} (h : 4096 < s.I.toNat + 3) :
    exec (.ldBVX x) s = .next (takeFault ⟨.writeOutOfRange, addrInfo (max s.I.toNat 4096)⟩ s.instrAddr s) := by
  have hl : (bcdDigits (s.getV x)).length = 3 := rfl
  rw [exec, execLdBVX, baseAddr, writeBytes_error s (List.ne_nil_of_length_eq_add_one hl) (hl ▸ h)]
  rfl

theorem exec_storeRegs_error {x : Reg} {s : State} (h : 4096 < s.I.toNat + (x.val + 1)) :
    exec (.storeRegs x) s = .next (takeFault ⟨.writeOutOfRange, addrInfo (max s.I.toNat 4096)⟩ s.instrAddr s) := by
  have hl : (regBlock s x).length = x.val + 1 := regBlock_length s x
  rw [exec, execStoreRegs, baseAddr, writeBytes_error s (List.ne_nil_of_length_eq_add_one hl) (hl ▸ h)]
  rfl

theorem exec_loadRegs_error {x : Reg} {s : State} (h : 4096 < s.I.toNat + (x.val + 1)) :
    exec (.loadRegs x) s = .next (takeFault ⟨.readOutOfRange, addrInfo (max s.I.toNat 4096)⟩ s.instrAddr s) := by
  rw [exec, execLoadRegs, baseAddr, readBytes_error s (Nat.succ_pos _) h]
  rfl

theorem exec_drw_error {x y : Reg} {n : Nat} {s : State} (hn : 0 < n) (h : 4096 < s.I.toNat + n) :
    exec (.drw x y n) s = .next (takeFault ⟨.readOutOfRange, addrInfo (max s.I.toNat 4096)⟩ s.instrAddr s) := by
  rw [exec, execDrw, baseAddr, readBytes_error s hn h]
  rfl

/-- The table's raise of a block access: the first address outside, when the block leaves memory. -/
theorem rangeRaise_of_lt {c : Cause} {s : State} {n : Nat} (hn : 0 < n) (h : 4096 < s.I.toNat + n) :
    rangeRaise c s n = some ⟨c, addrInfo (max s.I.toNat 4096)⟩ := if_pos ⟨hn, h⟩

theorem rangeRaise_of_le {c : Cause} {s : State} {n : Nat} (h : n = 0 ∨ s.I.toNat + n ≤ 4096) :
    rangeRaise c s n = none := if_neg (by omega)

/-- A handler completes with a write of its kind when the fault table gives it no raise, and takes the table's fault
when it does (60_exceptions.md R250). -/
theorem exec_spec (i : Instr) (s : State) :
    (raiseOf i s = none ∧ ∃ t, exec i s = .next t ∧ Effect i s t) ∨
    ∃ r, raiseOf i s = some r ∧ exec i s = .next (takeFault r s.instrAddr s) := by
  cases i with
  | cls => exact .inl ⟨rfl, _, rfl, .clear _ rfl⟩
  | jp | jpV0 => exact .inl ⟨rfl, _, rfl, .jump _ rfl⟩
  | ldI => exact .inl ⟨rfl, _, rfl, .index _ (.inl ⟨_, rfl⟩)⟩
  | addIVX => exact .inl ⟨rfl, _, rfl, .index _ (.inr ⟨_, .inl rfl⟩)⟩
  | ldFVX => exact .inl ⟨rfl, _, rfl, .index _ (.inr ⟨_, .inr rfl⟩)⟩
  | ldDTVX x => exact .inl ⟨rfl, _, rfl, .delay x rfl⟩
  | ldSTVX x => exact .inl ⟨rfl, _, rfl, .sound x rfl⟩
  | rnd x nn => exact .inl ⟨rfl, _, rfl, .random x nn _ rfl⟩
  | ldNN | addNN | ldVY | orVY | andVY | xorVY | ldVXDT => exact .inl ⟨rfl, _, rfl, .setV _ (by simp [mayWriteReg])⟩
  | addVY | subVY | subnVY | shr | shl =>
    exact .inl ⟨rfl, _, rfl, .setV_setV _ _ (by simp [mayWriteReg]) (by simp [mayWriteReg])⟩
  | seNN | sneNN | seVY | sneVY => exact .inl ⟨rfl, _, rfl, .skipIf _ rfl⟩
  | ldVXK x =>
    cases hk : firstKey s with
    | none => exact .inl ⟨rfl, _, exec_ldVXK_of_firstKey_none x hk, .jump _ rfl⟩
    | some k => exact .inl ⟨rfl, _, exec_ldVXK_of_firstKey_some x hk, .setV _ (by simp [mayWriteReg])⟩
  | ret =>
    by_cases h : s.sp = 0
    · exact .inr ⟨_, if_pos h, exec_ret_error (congrArg Fin.val h)⟩
    · have hv : s.sp.val ≠ 0 := fun h0 => h (Fin.ext h0)
      exact .inl ⟨if_neg h, _, exec_ret_ok hv, .pop _ rfl hv⟩
  | call nnn =>
    by_cases h : s.sp.val < 16
    · exact .inl ⟨if_neg fun h16 => absurd (congrArg Fin.val h16) h.ne, _, exec_call_ok nnn h, .push nnn rfl h⟩
    · have h16 : s.sp = 16 := Fin.ext (show s.sp.val = 16 by omega)
      exact .inr ⟨_, if_pos h16, exec_call_error nnn h⟩
  | skp x =>
    by_cases h : 15 < (s.getV x).toNat
    · exact .inr ⟨_, if_pos h, exec_skp_error h⟩
    · exact .inl ⟨if_neg h, _, exec_skp_ok (by omega), .skipIf _ rfl⟩
  | sknp x =>
    by_cases h : 15 < (s.getV x).toNat
    · exact .inr ⟨_, if_pos h, exec_sknp_error h⟩
    · exact .inl ⟨if_neg h, _, exec_sknp_ok (by omega), .skipIf _ rfl⟩
  | ldBVX x =>
    by_cases h : s.I.toNat + 3 ≤ 4096
    · exact .inl ⟨rangeRaise_of_le (.inr h), _, exec_ldBVX_ok h, .storeDigits x rfl h⟩
    · exact .inr ⟨_, rangeRaise_of_lt (by omega) (by omega), exec_ldBVX_error (by omega)⟩
  | storeRegs x =>
    by_cases h : s.I.toNat + (x.val + 1) ≤ 4096
    · exact .inl ⟨rangeRaise_of_le (.inr h), _, exec_storeRegs_ok h, .storeBlock x rfl h⟩
    · exact .inr ⟨_, rangeRaise_of_lt (by omega) (by omega), exec_storeRegs_error (by omega)⟩
  | loadRegs x =>
    by_cases h : s.I.toNat + (x.val + 1) ≤ 4096
    · exact .inl ⟨rangeRaise_of_le (.inr h), _, exec_loadRegs_ok h, .loadBlock x _ rfl (by simp)⟩
    · exact .inr ⟨_, rangeRaise_of_lt (by omega) (by omega), exec_loadRegs_error (by omega)⟩
  | drw x y n =>
    by_cases h : n = 0 ∨ s.I.toNat + n ≤ 4096
    · exact .inl ⟨rangeRaise_of_le h, _, exec_drw_ok h, .draw x y n _ rfl⟩
    · exact .inr ⟨_, rangeRaise_of_lt (by omega) (by omega), exec_drw_error (by omega) (by omega)⟩

/-- No handler stops. -/
theorem exec_answers (i : Instr) (s : State) : ∃ t, exec i s = .next t := by
  rcases exec_spec i s with ⟨_, t, ht, _⟩ | ⟨r, _, hr⟩
  · exact ⟨t, ht⟩
  · exact ⟨_, hr⟩

/-- Whatever a handler answers is one of its writes or its fault taken. -/
theorem Effect.of_exec {i : Instr} {s t : State} (h : exec i s = .next t) :
    Effect i s t ∨ ∃ r, t = takeFault r s.instrAddr s := by
  rcases exec_spec i s with ⟨_, u, hu, he⟩ | ⟨r, _, hr⟩
  · cases hu.symm.trans h
    exact .inl he
  · cases hr.symm.trans h
    exact .inr ⟨r, rfl⟩

/-- No handler that completes touches the fault record, the output, the keys, the latch or the parameters, and each
keeps memory canonical. -/
theorem Effect.frame {i : Instr} {s t : State} (h : Effect i s t) : HandlerFrame s t := by
  cases h with
  | regs | random | jump | push | pop | index | delay | sound | clear | draw =>
    exact ⟨rfl, rfl, rfl, rfl, rfl, rfl, id⟩
  | storeDigits x _ hm => exact HandlerFrame.writeAll (.inr hm)
  | storeBlock x _ hm => exact (HandlerFrame.writeAll (.inr (by rwa [regBlock_length]))).advanceIndex x
  | loadBlock x bytes => exact (HandlerFrame.setRegBlock s 0 bytes).advanceIndex x

/-! ### What a step can answer (30_encoding.md R93) -/

/-- What a step of `s` answers, one constructor a kind of cycle. -/
inductive StepResult (s : State) : State → Prop where
  /-- A halted block's step (60_exceptions.md R253). -/
  | halted (hs : s.fault.halted = true) : StepResult s (haltedStep s)
  /-- The fetch or the handler raised (R251, R252). -/
  | faulted (r : Raise) (hs : s.fault.halted = false) : StepResult s (keepFault s (takeFault r s.pc s))
  /-- The instruction completed. -/
  | executed (w : Word) (i : Instr) (u : State) (hw : FetchesWord s w) (hd : decodeWord w = some i)
      (he : Effect i (beginCycle w s) u) : StepResult s (timerStep u)
  /-- The word selected no instruction (R254). -/
  | reported (w : Word) (hw : FetchesWord s w) (hd : decodeWord w = none) :
      StepResult s (timerStep (execUnimplemented (beginCycle w s)))

/-- The advance of `pc` undone. -/
theorem beginCycle_instrAddr (w : Word) (s : State) : (beginCycle w s).instrAddr = s.pc :=
  BitVec.add_sub_cancel s.pc 2

theorem endCycle_of_halted {s t : State} (h : t.fault.halted = true) : endCycle s t = keepFault s t := if_pos h

theorem endCycle_of_running {s t : State} (h : t.fault.halted = false) : endCycle s t = timerStep t :=
  if_neg (Bool.eq_false_iff.mp h)

/-- A cycle whose word selects no instruction. -/
theorem step_eq_timerStep_report {s : State} {w : Word} (hw : FetchesWord s w) (hd : decodeWord w = none) :
    step s = .next (timerStep (execUnimplemented (beginCycle w s))) := by
  have hrun : (execUnimplemented (beginCycle w s)).fault.halted = false := hw.1
  rw [step_unimplemented hw hd, endCycle_of_running hrun]

/-- A step always answers a next state, of one of the four kinds. -/
theorem step_spec (s : State) : ∃ t, step s = .next t ∧ StepResult s t := by
  rcases step_cases s with hh | ⟨hs, hp⟩ | ⟨w, hw, hd | ⟨i, hd⟩⟩
  · exact ⟨_, step_halted hh, .halted hh⟩
  · exact ⟨_, step_fetchFault hs hp, .faulted _ hs⟩
  · exact ⟨_, step_eq_timerStep_report hw hd, .reported w hw hd⟩
  · rcases exec_spec i (beginCycle w s) with ⟨_, u, hu, he⟩ | ⟨r, _, hr⟩
    · exact ⟨_, step_eq_timerStep hw hd hu he.frame.fault, .executed w i u hw hd he⟩
    · refine ⟨_, ?_, .faulted r hw.1⟩
      rw [step_instr hw hd, hr, beginCycle_instrAddr]
      rfl

theorem StepResult.of_step {s t : State} (h : step s = .next t) : StepResult s t := by
  obtain ⟨u, hu, hr⟩ := step_spec s
  cases hu.symm.trans h
  exact hr

theorem FetchesWord.not_halted {s : State} {w : Word} (h : FetchesWord s w) : s.fault.halted ≠ true :=
  Bool.eq_false_iff.mp h.1

/-- A handler that completes in a cycle leaves the block running, and has emitted nothing. -/
theorem Effect.running {i : Instr} {w : Word} {s u : State} (h : Effect i (beginCycle w s) u) (hw : FetchesWord s w) :
    u.fault.halted = false := (congrArg FaultRecord.halted h.frame.fault).trans hw.1

theorem Effect.events_of_beginCycle {i : Instr} {w : Word} {s u : State} (h : Effect i (beginCycle w s) u) :
    u.events = [] := h.frame.events

/-! ### The invariant -/

/-- A cycle that completes keeps the invariant: it leaves the clear record of a running block as it is. -/
theorem Inv.of_fault_eq {s t : State} (hs : Inv s) (hrun : s.fault.halted = false) (hf : t.fault = s.fault)
    (hw : Memory.wf t.params.font t.mem = true) : Inv t := by
  have hrun' : t.fault.halted ≠ true := by rw [hf, hrun]; exact Bool.false_ne_true
  exact ⟨hw, fun _ => hf.trans (hs.recordClear hrun), fun h => absurd h hrun', fun h => absurd h hrun',
    fun h => absurd h hrun'⟩

theorem Inv.of_stepResult {s t : State} (hs : Inv s) (h : StepResult s t) : Inv t := by
  cases h with
  | halted => exact ⟨hs.memoryWf, hs.recordClear, hs.recordCause, hs.recordPc, hs.haltedStepped⟩
  | faulted r =>
    exact ⟨hs.memoryWf, fun h => Bool.noConfusion h, fun _ => ⟨r.cause, rfl⟩, fun _ => rfl, fun _ => rfl⟩
  | executed w i u hw _ he => exact hs.of_fault_eq hw.1 he.frame.fault (he.frame.wf hs.memoryWf)
  | reported w hw => exact hs.of_fault_eq hw.1 rfl hs.memoryWf

/-- Settles O36: reset lists no byte and clears the record. -/
theorem resetHasInvariant : Obligations.ResetHasInvariant := fun p =>
  ⟨Memory.wf_nil p.font, fun _ => rfl, fun h => Bool.noConfusion h, fun h => Bool.noConfusion h,
    fun h => Bool.noConfusion h⟩

/-- Settles O37, for each of the four kinds of cycle. -/
theorem stepKeepsInvariant : Obligations.StepKeepsInvariant := fun _ _ hs h => hs.of_stepResult (.of_step h)

/-- A run of `k + 1` steps is a run of `k` from what the first answers. -/
theorem run_succ_of_step (k : Nat) {s t : State} (h : step s = .next t) :
    Host.Core.run Sys2Proof.core (k + 1) s = Host.Core.run Sys2Proof.core k t := by
  have h' : Host.Core.step Sys2Proof.core s = .next t := h
  simp only [Host.Core.run, h']

/-- Settles O38, by induction on the number of steps: each answers a next state with the invariant. -/
theorem runNeverStopsAndKeepsInvariant : Obligations.RunNeverStopsAndKeepsInvariant := by
  intro k
  induction k with
  | zero => exact fun s hs => ⟨s, rfl, hs⟩
  | succ k ih =>
    intro s hs
    obtain ⟨t, ht, hr⟩ := step_spec s
    obtain ⟨u, hu, hu'⟩ := ih t (hs.of_stepResult hr)
    exact ⟨u, (run_succ_of_step k ht).trans hu, hu'⟩

end Sys2Proof.Machine
end

section
/-! PROOFS. The cycle (30_encoding.md R93, 60_exceptions.md R250 to R268): its four kinds written out, what a fault
keeps, the timers and the output. -/

namespace Sys2Proof.Machine

/-! ### The parts of a cycle, as the statements write them -/

theorem countDown_eq (t : Byte) : countDown t = BitVec.ofNat 8 (t.toNat - 1) := by
  rw [← countDown_toNat, BitVec.ofNat_toNat, BitVec.setWidth_eq]

/-- The tone's end is appended to what the handler emitted. -/
theorem timerStep_events_eq (s : State) :
    (timerStep s).events = s.events ++ if s.ST = 1 then [.toneEnd] else [] := by
  rw [timerStep_events]
  split
  · rfl
  · exact (List.append_nil _).symm

theorem timerStep_eq (s : State) : timerStep s = { s with
    DT := BitVec.ofNat 8 (s.DT.toNat - 1), ST := BitVec.ofNat 8 (s.ST.toNat - 1),
    events := s.events ++ if s.ST = 1 then [.toneEnd] else [] } := by
  rw [← countDown_eq, ← countDown_eq, ← timerStep_events_eq]
  rfl

/-- Two bytes that decode to an instruction form its word. -/
theorem decodeWord_of_decode {hi lo : Byte} {i : Instr} (h : decode [hi, lo] = .ok (i, [])) :
    decodeWord (wordOfBytes hi lo) = some i := by
  cases hw : decodeWord (wordOfBytes hi lo) with
  | none => simp [decode, hw] at h
  | some j =>
    simp only [decode, hw] at h
    cases h
    rfl

/-! ### The four kinds of cycle -/

/-- Settles O39: the staged state is `beginCycle`, and the two ends of a cycle are `keepFault` and the Timer Step. -/
theorem stepRunsDecodedInstruction : Obligations.StepRunsDecodedInstruction := by
  intro s i hs hp _ hdec
  obtain ⟨u, hu⟩ := exec_answers i (beginCycle (wordOfBytes (s.readByte s.pc.toNat) (s.readByte (s.pc.toNat + 1))) s)
  have hstep : step s = .next (endCycle s u) := by
    rw [step_instr ⟨hs, hp, rfl⟩ (decodeWord_of_decode hdec), hu, commit]
  refine ⟨u, hu, fun hh => ?_, fun hh => ?_⟩
  · rw [hstep, endCycle_of_halted hh]
    rfl
  · rw [hstep, endCycle_of_running hh, timerStep_eq]

/-- Settles O40: the report is the handler's one write, before the Timer Step. -/
theorem unimplementedWordIsReported : Obligations.UnimplementedWordIsReported := by
  intro s w hw hd
  have hev : (execUnimplemented (beginCycle w s)).events = [.unimplemented w s.pc] := by
    rw [execUnimplemented_events, beginCycle_instrAddr]
    rfl
  rw [step_eq_timerStep_report hw hd, timerStep_eq, hev]
  rfl

/-- Settles O41: the output emptied is the one write of `haltedStep`. -/
theorem haltedBlockDoesNothing : Obligations.HaltedBlockDoesNothing := fun _ => step_halted

/-- Settles O42: the fetch raises at `pc`, or at 0x1000 when only the second byte lies outside. -/
theorem fetchOutsideMemoryFaults : Obligations.FetchOutsideMemoryFaults := by
  intro s hs
  refine ⟨fun hp => ?_, fun hp => ?_⟩
  · rw [step_fetchFault hs (by omega), Nat.max_eq_left hp]
    rfl
  · rw [step_fetchFault hs (by omega), hp]
    rfl

/-- Settles O45: each of the four kinds of cycle answers a next state. -/
theorem everyStepAnswersNextState : Obligations.EveryStepAnswersNextState := fun s =>
  (step_spec s).imp fun _ h => h.1

/-! ### Faults -/

/-- Settles O44: the table's raise is the fault taken, and a handler without one completes within its frame. -/
theorem onlyTableConditionsFault : Obligations.OnlyTableConditionsFault := by
  intro i s
  rcases exec_spec i s with ⟨hn, t, ht, he⟩ | ⟨r, hr, hx⟩
  · exact ⟨fun r h => absurd (hn.symm.trans h) nofun, fun _ => ⟨t, ht, he.frame.fault, he.frame.events⟩⟩
  · refine ⟨fun r' h => ?_, fun h => absurd (h.symm.trans hr) nofun⟩
    cases hr.symm.trans h
    exact hx

/-- A running block that a step leaves halted has faulted in that step. -/
theorem StepResult.eq_keepFault {s t : State} (h : StepResult s t) (hs : s.fault.halted = false)
    (ht : t.fault.halted = true) : ∃ r, t = keepFault s (takeFault r s.pc s) := by
  have hs' : s.fault.halted ≠ true := Bool.eq_false_iff.mp hs
  cases h with
  | halted hh => exact absurd hh hs'
  | faulted r => exact ⟨r, rfl⟩
  | executed w i u hw _ he => exact absurd ht (Bool.eq_false_iff.mp (he.running hw))
  | reported => exact absurd ht hs'

/-- Settles O43: such a step is a fault taken at `pc` and kept alone. -/
theorem faultIsPrecise : Obligations.FaultIsPrecise := by
  intro s t hs hstep ht
  obtain ⟨r, rfl⟩ := (StepResult.of_step hstep).eq_keepFault hs ht
  exact ⟨r.cause, r.info, rfl⟩

/-! ### Timers and output -/

theorem FetchesWord.unique {s : State} {w w' : Word} (h : FetchesWord s w) (h' : FetchesWord s w') : w = w' :=
  h.2.2.symm.trans h'.2.2

/-- FX15 alone writes `DT` in a handler. -/
theorem Effect.DT_eq {i : Instr} {s t : State} (h : Effect i s t) (hi : ∀ x, i ≠ .ldDTVX x) : t.DT = s.DT := by
  cases h with
  | delay x hx => exact absurd hx (hi x)
  | storeDigits | storeBlock | loadBlock => simp
  | regs | random | jump | push | pop | index | sound | clear | draw => rfl

/-- FX18 alone writes `ST` in a handler. -/
theorem Effect.ST_eq {i : Instr} {s t : State} (h : Effect i s t) (hi : ∀ x, i ≠ .ldSTVX x) : t.ST = s.ST := by
  cases h with
  | sound x hx => exact absurd hx (hi x)
  | storeDigits | storeBlock | loadBlock => simp
  | regs | random | jump | push | pop | index | delay | clear | draw => rfl

/-- `ToneEnd` is in the output when the Timer Step adds it, for it is the one that emits it (R260). -/
theorem toneEnd_mem_timerStep {s : State} (h : Event.toneEnd ∉ s.events) :
    Event.toneEnd ∈ (timerStep s).events ↔ s.ST.toNat = 1 := by
  have h1 : s.ST.toNat = 1 ↔ s.ST = 1 := BitVec.toNat_inj (y := 1)
  rw [timerStep_events_eq, List.mem_append, h1]
  by_cases hst : s.ST = 1 <;> simp [h, hst]

/-- Settles O46: each kind of cycle that completes ends with the Timer Step, on the timers the handler left. -/
theorem timersCountOncePerCycle : Obligations.TimersCountOncePerCycle := by
  intro s t w hstep
  cases StepResult.of_step hstep with
  | halted hh => exact ⟨fun _ => ⟨rfl, rfl, List.not_mem_nil⟩, fun hw => absurd hh hw.not_halted⟩
  | faulted r => exact ⟨fun _ => ⟨rfl, rfl, by simp⟩, fun _ ht => Bool.noConfusion ht⟩
  | executed w' i u hw' hd he =>
    refine ⟨fun ht => absurd ht (Bool.eq_false_iff.mp (he.running hw')), fun hw _ => ?_⟩
    cases hw.unique hw'
    refine ⟨fun hi => ?_, fun hi => ?_⟩
    · have hDT : u.DT = s.DT := he.DT_eq fun x hx => hi x (hx ▸ hd)
      rw [timerStep_DT, countDown_toNat, hDT]
    · have hST : u.ST = s.ST := he.ST_eq fun x hx => hi x (hx ▸ hd)
      have htone : Event.toneEnd ∉ u.events := by simp [he.events_of_beginCycle]
      exact ⟨by rw [timerStep_ST, countDown_toNat, hST], by rw [toneEnd_mem_timerStep htone, hST]⟩
  | reported w' hw' hd =>
    refine ⟨fun ht => absurd ht hw'.not_halted, fun _ _ => ⟨fun _ => ?_, fun _ => ⟨?_, ?_⟩⟩⟩
    · exact countDown_toNat s.DT
    · exact countDown_toNat s.ST
    · exact toneEnd_mem_timerStep (by simp)

/-- Settles O47, for each of the four kinds of cycle. -/
theorem stepOutputHasSpecShape : Obligations.StepOutputHasSpecShape := by
  intro s t hstep
  cases StepResult.of_step hstep with
  | halted hh =>
    have hs' (hs : s.fault.halted = false) : s.fault.halted ≠ true := Bool.eq_false_iff.mp hs
    exact ⟨fun _ => rfl, fun hs => absurd hh (hs' hs), fun hs => absurd hh (hs' hs)⟩
  | faulted r hs =>
    exact ⟨fun hh => absurd hh (Bool.eq_false_iff.mp hs), fun _ _ => ⟨r.cause, rfl, rfl⟩,
      fun _ ht => Bool.noConfusion ht⟩
  | executed w i u hw hd he =>
    refine ⟨fun hh => absurd hh hw.not_halted, fun _ ht => absurd ht (Bool.eq_false_iff.mp (he.running hw)),
      fun _ _ => ?_⟩
    rw [timerStep_events_eq, he.events_of_beginCycle]
    by_cases hst : u.ST = 1
    · exact .inr (.inl (by rw [if_pos hst]; rfl))
    · exact .inl (by rw [if_neg hst]; rfl)
  | reported w hw hd =>
    refine ⟨fun hh => absurd hh hw.not_halted, fun _ ht => absurd ht hw.not_halted, fun _ _ => ?_⟩
    rw [timerStep_events_eq, execUnimplemented_events, execUnimplemented_ST, beginCycle_instrAddr, beginCycle_ST]
    by_cases hst : s.ST = 1
    · exact .inr (.inr (.inr (by rw [if_pos hst]; rfl)))
    · exact .inr (.inr (.inl (by rw [if_neg hst]; rfl)))

/-! ### What may write what (10_state.md R22 to R32, 20_memory.md R61) -/

/-- Settles O53: of the writes of a handler two reach memory, each its own bytes alone. -/
theorem onlyBcdAndStoreWriteMemory : Obligations.OnlyBcdAndStoreWriteMemory := by
  intro i s t a hx hne
  rcases Effect.of_exec hx with he | ⟨r, rfl⟩
  · cases he with
    | storeDigits x hi =>
      refine .inl ⟨x, hi, ?_⟩
      by_contra hout
      exact hne (s.readByte_writeAll_of_not hout)
    | storeBlock x hi =>
      refine .inr ⟨x, hi, ?_⟩
      by_contra hout
      rw [advanceIndex_readByte, s.readByte_writeAll_of_not (by rwa [regBlock_length])] at hne
      exact hne rfl
    | loadBlock => exact absurd (by simp) hne
    | regs | random | jump | push | pop | index | delay | sound | clear | draw => exact absurd rfl hne
  · exact absurd rfl hne

/-- Settles O54: of the writes of a handler five reach a register. -/
theorem onlyListedInstructionsWriteRegisters : Obligations.OnlyListedInstructionsWriteRegisters := by
  intro i s t r hx hne
  rcases Effect.of_exec hx with he | ⟨r, rfl⟩
  · cases he with
    | regs v hv => exact hv r hne
    | random x nn b hi =>
      by_cases hr : r = x
      · simp [hi, mayWriteReg, hr]
      · exact absurd (s.nextDraw.getV_setV_ne b hr) hne
    | draw x y n d hi =>
      by_cases hr : r = VF
      · simp [hi, mayWriteReg, hr]
      · exact absurd ((s.setGfx d.gfx).getV_setFlag_ne _ hr) hne
    | loadBlock x bytes hi hl =>
      rw [advanceIndex_getV] at hne
      by_cases hr : r ≤ x
      · simp [hi, mayWriteReg, hr]
      · have hlt : x.val < r.val := Fin.lt_def.mp (not_le.mp hr)
        exact absurd (getV_setRegBlock_of_not s (by omega)) hne
    | storeDigits | storeBlock => exact absurd (by simp) hne
    | jump | push | pop | index | delay | sound | clear => exact absurd rfl hne
  · exact absurd rfl hne

/-- Settles O55: of the writes of a handler three reach `I`, two of them under the parameter. -/
theorem onlyListedInstructionsWriteIndex : Obligations.OnlyListedInstructionsWriteIndex := by
  intro i s t hx hne
  rcases Effect.of_exec hx with he | ⟨r, rfl⟩
  · cases he with
    | index w hi => exact hi.imp id .inl
    | storeBlock x hi =>
      cases hp : s.params.indexIncrementOnBlock
      · exact absurd (by simp [hp]) hne
      · exact .inr (.inr ⟨rfl, x, .inl hi⟩)
    | loadBlock x bytes hi =>
      cases hp : s.params.indexIncrementOnBlock
      · exact absurd (by simp [hp]) hne
      · exact .inr (.inr ⟨rfl, x, .inr hi⟩)
    | storeDigits => exact absurd (by simp) hne
    | regs | random | jump | push | pop | delay | sound | clear | draw => exact absurd rfl hne
  · exact absurd rfl hne

/-- Settles O56: of the writes of a handler one is of `pc` alone, and CALL and RET have one each. -/
theorem onlyListedInstructionsTransferControl : Obligations.OnlyListedInstructionsTransferControl := by
  intro i s t hx
  rcases Effect.of_exec hx with he | ⟨r, rfl⟩
  · cases he with
    | jump a hi => exact ⟨fun _ => hi, fun _ _ h => absurd rfl h, fun h => absurd rfl h⟩
    | push nnn hi hlt =>
      refine ⟨fun _ => by rw [hi]; rfl, fun j hj h => ⟨?_, nnn, hi⟩, fun _ => .inr ⟨⟨nnn, hi⟩, rfl⟩⟩
      by_contra hne
      exact h (Vector.getElem_set_ne hlt hj (Ne.symm hne))
    | pop a hi hpos =>
      exact ⟨fun _ => by rw [hi]; rfl, fun _ _ h => absurd rfl h, fun _ => .inl ⟨hi, Nat.succ_pred_eq_of_ne_zero hpos⟩⟩
    | storeDigits | storeBlock | loadBlock =>
      exact ⟨fun h => absurd (by simp) h, fun _ _ h => absurd (by simp) h, fun h => absurd (by simp) h⟩
    | regs | random | index | delay | sound | clear | draw =>
      exact ⟨fun h => absurd rfl h, fun _ _ h => absurd rfl h, fun h => absurd rfl h⟩
  · exact ⟨fun h => absurd rfl h, fun _ _ h => absurd rfl h, fun h => absurd rfl h⟩

/-- A handler that writes a cell or the draw flag is that of 00E0 or DXYN, and both set the flag. -/
theorem Effect.screen {i : Instr} {s t : State} (h : Effect i s t) :
    (t.gfx = s.gfx ∧ t.drawFlag = s.drawFlag) ∨ (t.drawFlag = true ∧ (i = .cls ∨ ∃ x y n, i = .drw x y n)) := by
  cases h with
  | clear g hi => exact .inr ⟨rfl, .inl hi⟩
  | draw x y n d hi => exact .inr ⟨rfl, .inr ⟨x, y, n, hi⟩⟩
  | storeDigits | storeBlock | loadBlock => exact .inl (by simp)
  | regs | random | jump | push | pop | index | delay | sound => exact .inl ⟨rfl, rfl⟩

/-- What no step does, for only a port does it (10_state.md R37): write a key, clear the draw flag, leave the halted
state, change a parameter. -/
theorem StepResult.leaves_ports {s t : State} (h : StepResult s t) :
    t.key = s.key ∧ (s.drawFlag = true → t.drawFlag = true) ∧ (s.fault.halted = true → t.fault.halted = true) ∧
      t.params = s.params := by
  cases h with
  | halted => exact ⟨rfl, id, id, rfl⟩
  | faulted => exact ⟨rfl, id, fun _ => rfl, rfl⟩
  | executed w i u hw _ he =>
    refine ⟨he.frame.key, fun hdf => ?_, fun hh => absurd hh hw.not_halted, he.frame.params⟩
    rcases he.screen with ⟨_, hsame⟩ | ⟨hset, _⟩
    · exact hsame.trans hdf
    · exact hset
  | reported => exact ⟨rfl, id, id, rfl⟩

/-- Settles O57: no kind of step does what a port does, and two writes of a handler reach the screen. -/
theorem onlyDisplayInstructionsDraw : Obligations.OnlyDisplayInstructionsDraw := by
  refine ⟨fun s t h => ?_, fun i s t hx hne => ?_⟩
  · obtain ⟨hkey, hflag, _, _⟩ := (StepResult.of_step h).leaves_ports
    exact ⟨hkey, hflag⟩
  · rcases Effect.of_exec hx with he | ⟨r, rfl⟩
    · rcases he.screen with ⟨hg, hf⟩ | ⟨_, hi⟩
      · exact hne.elim (absurd hg) (absurd hf)
      · exact hi
    · exact hne.elim (absurd rfl) (absurd rfl)

/-- CXNN alone draws: of the writes of a handler one advances the draws. -/
theorem exists_rnd_of_draws_ne {i : Instr} {s t : State} (h : exec i s = .next t) (hne : t.draws ≠ s.draws) :
    ∃ x nn, i = .rnd x nn := by
  rcases Effect.of_exec h with he | ⟨r, rfl⟩
  · cases he with
    | random x nn b hi => exact ⟨x, nn, hi⟩
    | storeDigits | storeBlock | loadBlock => exact absurd (by simp) hne
    | regs | jump | push | pop | index | delay | sound | clear | draw => exact absurd rfl hne
  · exact absurd rfl hne

/-! ### The opcode latch (10_state.md R33, R38) -/

/-- A cycle whose word is fetched ends on what its handler leaves, whatever the word selects. -/
theorem step_of_dispatch {s u : State} {w : Word} (h : FetchesWord s w)
    (hu : dispatchWord w (beginCycle w s) = .next u) : step s = .next (endCycle s u) := by
  simp [step, h.1, h.fetch, hu, commit]

theorem dispatchWord_answers (w : Word) (s : State) : ∃ t, dispatchWord w s = .next t := by
  unfold dispatchWord
  cases decodeWord w with
  | none => exact ⟨_, rfl⟩
  | some i => exact exec_answers i s

/-- Settles O58: a fetch reads no latch and `beginCycle` overwrites it, so both cycles run one handler on one state;
only a fault or a halted block keeps the latch the cycle began with. -/
theorem opcodeLatchIsNeverRead : Obligations.OpcodeLatchIsNeverRead := by
  intro s t v hstep
  rcases step_cases s with hh | ⟨hs, hp⟩ | ⟨w, hw, _⟩
  · cases (step_halted hh).symm.trans hstep
    exact ⟨fun hs => absurd hh (Bool.eq_false_iff.mp hs), fun _ => step_halted (s := { s with opcode := v }) hh⟩
  · cases (step_fetchFault hs hp).symm.trans hstep
    exact ⟨fun h => Bool.noConfusion h, fun _ => step_fetchFault (s := { s with opcode := v }) hs hp⟩
  · obtain ⟨u, hu⟩ := dispatchWord_answers w (beginCycle w s)
    cases (step_of_dispatch hw hu).symm.trans hstep
    have hw' : FetchesWord { s with opcode := v } w := hw
    have hstep' : step { s with opcode := v } = .next (endCycle { s with opcode := v } u) := step_of_dispatch hw' hu
    rw [hstep']
    cases hrun : u.fault.halted with
    | false =>
      rw [endCycle_of_running hrun, endCycle_of_running hrun]
      exact ⟨fun _ => rfl, fun h => absurd h (Bool.eq_false_iff.mp hrun)⟩
    | true =>
      rw [endCycle_of_halted hrun, endCycle_of_halted hrun]
      exact ⟨fun h => absurd hrun (Bool.eq_false_iff.mp h), fun _ => rfl⟩

end Sys2Proof.Machine
end

section
/-! PROOFS. The host's side (10_state.md R37): the loader (20_memory.md R73 to R75), the ports, and the placing of a
word where the next step fetches (R64). -/

namespace Sys2Proof.Machine

/-! ### The loader -/

theorem State.load_of_stepped {s : State} (h : s.stepped = true) (bytes : List Byte) :
    s.load bytes = .refused .loadAfterStep := if_pos h

theorem State.load_ok {s : State} (h : s.stepped = false) {bytes : List Byte} (h₀ : 0 < bytes.length)
    (h₁ : bytes.length ≤ 3584) : s.load bytes = .next (s.writeAll 0x200 bytes) := by
  have hlen : ¬ (bytes.length = 0 ∨ Config.progMaxLen < bytes.length) := by
    rw [Config.progMaxLen]
    omega
  rw [State.load, if_neg (Bool.eq_false_iff.mp h), if_neg hlen]

theorem State.load_error {s : State} (h : s.stepped = false) {bytes : List Byte}
    (hl : bytes.length = 0 ∨ 3584 < bytes.length) : s.load bytes = .fault .loadError := by
  rw [State.load, if_neg (Bool.eq_false_iff.mp h), if_pos hl]

/-- Settles O33: within the bounds the loader is the verbatim write from 0x200, which canonical memory reads back. -/
theorem loadWritesProgramVerbatim : Obligations.LoadWritesProgramVerbatim := by
  intro bytes s hs hwf
  refine ⟨fun h₀ h₁ => ⟨_, State.load_ok hs h₀ h₁, fun k hk => ?_, fun a ha => ?_, ?_⟩, State.load_error hs⟩
  · exact s.readByte_writeAll (Memory.wf_iff.mp hwf).1 0x200 hk
  · exact s.readByte_writeAll_of_not ha
  · exact s.writeAll_frame 0x200 bytes

/-- Every step of a running block records that the block has stepped (log 4). -/
theorem StepResult.stepped {s t : State} (h : StepResult s t) (hs : s.fault.halted = false) : t.stepped = true := by
  cases h with
  | halted hh => exact absurd hh (Bool.eq_false_iff.mp hs)
  | faulted | reported => rfl
  | executed w i u _ _ he => exact he.frame.stepped

/-- A block that has not stepped loads or raises `LoadError`, and refuses nothing. -/
theorem State.load_ne_refused {s : State} (h : s.stepped = false) (bytes : List Byte) :
    s.load bytes ≠ .refused .loadAfterStep := by
  by_cases hl : bytes.length = 0 ∨ 3584 < bytes.length
  · rw [State.load_error h hl]
    exact nofun
  · rw [State.load_ok h (by omega) (by omega)]
    exact nofun

/-- Settles O34: a step of a running block sets `stepped`, and reset clears it. -/
theorem loadAfterStepIsRefused : Obligations.LoadAfterStepIsRefused := fun bytes _ _ hs hstep =>
  ⟨State.load_of_stepped ((StepResult.of_step hstep).stepped hs) bytes, State.load_ne_refused rfl bytes⟩

/-! ### The ports -/

theorem State.keyEvent_of_le {s : State} {code : Nat} (h : 16 ≤ code) (b : Bool) : s.keyEvent code b = s :=
  dif_neg (Nat.not_lt.mpr h)

theorem State.keyEvent_of_lt {s : State} {code : Nat} (h : code < 16) (b : Bool) :
    s.keyEvent code b = s.keyIn (s.key.set code b) := dif_pos h

/-- Settles O35: each port is one record update, and no kind of step does what they do. -/
theorem hostPortsActBetweenCycles : Obligations.HostPortsActBetweenCycles := by
  intro s
  refine ⟨⟨rfl, rfl⟩, ⟨rfl, rfl, rfl⟩, fun keys => ⟨fun _ _ => rfl, rfl⟩, fun _ b h => State.keyEvent_of_le h b,
    fun code b h => ?_, fun t ht => (StepResult.of_step ht).leaves_ports⟩
  rw [State.keyEvent_of_lt h]
  refine ⟨Vector.getElem_set_self h, fun j hj hne => ?_, rfl⟩
  exact Vector.getElem_set_ne h hj (Ne.symm hne)

/-! ### A word placed at `pc` -/

/-- A table word of one instruction word is the word itself. -/
theorem tableWord_sixteen (w : Nat) : tableWord 16 w = BitVec.ofNat 16 w := by
  rw [tableWord, ← BitVec.toNat_ofNat w 16, BitVec.ofNat_toNat, BitVec.setWidth_eq]

theorem State.withFetchWord_eq {s : State} (h : s.pc.toNat + 1 < 4096) (w : Nat) :
    s.withFetchWord 16 w = s.writeAll s.pc.toNat (bytesOfWord (BitVec.ofNat 16 w)) := by
  rw [State.withFetchWord, storeFetchWord, if_pos h, tableWord_sixteen]

/-- The two bytes of a word written to canonical memory read back as the word (R64). -/
theorem wordOfBytes_writeAll_bytesOfWord {s : State} (hs : Memory.Sorted s.mem) (a : Nat) (w : Word) :
    wordOfBytes ((s.writeAll a (bytesOfWord w)).readByte a) ((s.writeAll a (bytesOfWord w)).readByte (a + 1)) = w := by
  have hhi : (s.writeAll a (bytesOfWord w)).readByte a = highByte w :=
    s.readByte_writeAll hs a (bytes := bytesOfWord w) (k := 0) Nat.zero_lt_two
  have hlo : (s.writeAll a (bytesOfWord w)).readByte (a + 1) = lowByte w :=
    s.readByte_writeAll hs a (bytes := bytesOfWord w) (k := 1) Nat.one_lt_two
  rw [hhi, hlo, wordOfBytes_bytes]

/-- Settles O59: the placing is the verbatim write of the word's two bytes at `pc`. -/
theorem placedWordIsFetched : Obligations.PlacedWordIsFetched := by
  intro s w hwf hs hp
  rw [State.withFetchWord_eq hp]
  refine ⟨⟨?_, ?_, ?_⟩, s.writeAll_frame _ _, fun _ hb => s.readByte_writeAll_of_not hb⟩
  · rwa [State.writeAll_fault]
  · rwa [State.writeAll_pc]
  · rw [State.writeAll_pc]
    exact wordOfBytes_writeAll_bytesOfWord (Memory.wf_iff.mp hwf).1 _ _

end Sys2Proof.Machine
end

section
/-! PROOFS. Register and ALU instructions (42_alu.md): the logic operations, the operations that write `V[F]` and the
random byte. -/

namespace Sys2Proof.Machine

/-! ### What writes of registers do -/

theorem OnlyRegs.refl (ws : List Reg) (s : State) : OnlyRegs ws s s := ⟨rfl, fun _ _ => rfl, fun _ => rfl⟩

theorem OnlyRegs.setV {ws : List Reg} {s t : State} (h : OnlyRegs ws s t) {x : Reg} (hx : x ∈ ws) (b : Byte) :
    OnlyRegs ws s (t.setV x b) := by
  obtain ⟨hframe, hregs, hmem⟩ := h
  refine ⟨?_, fun r hr => ?_, hmem⟩
  · rw [hframe]
    rfl
  · have hne : r ≠ x := fun hrx => hr (hrx ▸ hx)
    exact (t.getV_setV_ne b hne).trans (hregs r hr)

theorem onlyRegs_setResultThenFlag (s : State) (x : Reg) (b : Byte) (c : Bool) :
    OnlyRegs [x, VF] s (setResultThenFlag s x b c) :=
  ((OnlyRegs.refl [x, VF] s).setV List.mem_cons_self b).setV (by simp) (flagByte c)

/-- The flag is written last, so it remains for `X = F` (R183). -/
theorem setResultThenFlag_getV_VF (s : State) (x : Reg) (b : Byte) (c : Bool) :
    (setResultThenFlag s x b c).getV VF = flagByte c := (s.setV x b).getV_setFlag_self c

theorem setResultThenFlag_getV {s : State} {x : Reg} (b : Byte) (c : Bool) (h : x ≠ VF) :
    (setResultThenFlag s x b c).getV x = b :=
  ((s.setV x b).getV_setFlag_ne c h).trans (s.getV_setV_self x b)

/-- An instruction whose handler writes a result and then the flag of `p`. -/
theorem exec_result_flag_spec {i : Instr} {s : State} {x : Reg} {b : Byte} {n : Nat} {p : Prop} [Decidable p]
    (he : exec i s = .next (setResultThenFlag s x b (decide p))) (hb : b.toNat = n) :
    ∃ t, exec i s = .next t ∧ (x ≠ VF → (t.getV x).toNat = n) ∧ (t.getV VF).toNat = (if p then 1 else 0) ∧
      OnlyRegs [x, VF] s t := by
  refine ⟨_, he, fun hx => ?_, ?_, onlyRegs_setResultThenFlag s x b _⟩
  · rw [setResultThenFlag_getV b _ hx, hb]
  · rw [setResultThenFlag_getV_VF, flagByte]
    by_cases hp : p <;> simp [hp]

/-! ### 8XY1, 8XY2, 8XY3 -/

theorem decodesAs_orVY : DecodesAs 0xF00F 0x8001 (fun w => .orVY (fieldX w) (fieldY w)) :=
  decodesAs_of_family8 (by decide) fun w (hN : fieldN w = 1) => by simp [decodeFamily8, hN]

theorem decodesAs_andVY : DecodesAs 0xF00F 0x8002 (fun w => .andVY (fieldX w) (fieldY w)) :=
  decodesAs_of_family8 (by decide) fun w (hN : fieldN w = 2) => by simp [decodeFamily8, hN]

theorem decodesAs_xorVY : DecodesAs 0xF00F 0x8003 (fun w => .xorVY (fieldX w) (fieldY w)) :=
  decodesAs_of_family8 (by decide) fun w (hN : fieldN w = 3) => by simp [decodeFamily8, hN]

theorem exec_orVY (x y : Reg) (s : State) : exec (.orVY x y) s = .next (s.setV x (s.getV x ||| s.getV y)) := rfl

theorem exec_andVY (x y : Reg) (s : State) : exec (.andVY x y) s = .next (s.setV x (s.getV x &&& s.getV y)) := rfl

theorem exec_xorVY (x y : Reg) (s : State) : exec (.xorVY x y) s = .next (s.setV x (s.getV x ^^^ s.getV y)) := rfl

/-- Settles O4: each handler's one write is `V[X]`, to the bitwise operation of the two registers. -/
theorem logicOperationsLeaveFlag : Obligations.LogicOperationsLeaveFlag := by
  refine ⟨decodesAs_orVY, decodesAs_andVY, decodesAs_xorVY, fun x y s => ⟨?_, ?_, ?_⟩⟩
  · refine ⟨_, exec_orVY x y s, onlyRegs_setV s x _, fun b => ?_⟩
    rw [State.getV_setV_self, BitVec.getLsbD_or]
  · refine ⟨_, exec_andVY x y s, onlyRegs_setV s x _, fun b => ?_⟩
    rw [State.getV_setV_self, BitVec.getLsbD_and]
  · refine ⟨_, exec_xorVY x y s, onlyRegs_setV s x _, fun b => ?_⟩
    rw [State.getV_setV_self, BitVec.getLsbD_xor]

/-! ### 8XY4, 8XY5, 8XY7 -/

theorem decodesAs_addVY : DecodesAs 0xF00F 0x8004 (fun w => .addVY (fieldX w) (fieldY w)) :=
  decodesAs_of_family8 (by decide) fun w (hN : fieldN w = 4) => by simp [decodeFamily8, hN]

theorem decodesAs_subVY : DecodesAs 0xF00F 0x8005 (fun w => .subVY (fieldX w) (fieldY w)) :=
  decodesAs_of_family8 (by decide) fun w (hN : fieldN w = 5) => by simp [decodeFamily8, hN]

theorem decodesAs_subnVY : DecodesAs 0xF00F 0x8007 (fun w => .subnVY (fieldX w) (fieldY w)) :=
  decodesAs_of_family8 (by decide) fun w (hN : fieldN w = 7) => by simp [decodeFamily8, hN]

theorem exec_addVY (x y : Reg) (s : State) : exec (.addVY x y) s = .next (setResultThenFlag s x
    (trunc8 ((s.getV x).toNat + (s.getV y).toNat)) (decide ((s.getV x).toNat + (s.getV y).toNat > 255))) := rfl

theorem exec_subVY (x y : Reg) (s : State) : exec (.subVY x y) s = .next (setResultThenFlag s x
    (s.getV x - s.getV y) (decide ((s.getV x).toNat ≥ (s.getV y).toNat))) := rfl

theorem exec_subnVY (x y : Reg) (s : State) : exec (.subnVY x y) s = .next (setResultThenFlag s x
    (s.getV y - s.getV x) (decide ((s.getV y).toNat ≥ (s.getV x).toNat))) := rfl

theorem byte_sub_toNat (a b : Byte) : (a - b).toNat = (a.toNat + 256 - b.toNat) % 256 := by
  have hb : b.toNat < 256 := b.isLt
  rw [BitVec.toNat_sub]
  omega

/-- Settles O5: the truncated sum, then the carry. -/
theorem addRegistersSetsCarry : Obligations.AddRegistersSetsCarry :=
  ⟨decodesAs_addVY, fun x y s => exec_result_flag_spec (exec_addVY x y s) (trunc8_toNat _)⟩

/-- Settles O6: the difference, then the no-borrow flag. -/
theorem subtractSetsNoBorrow : Obligations.SubtractSetsNoBorrow :=
  ⟨decodesAs_subVY, fun x y s => exec_result_flag_spec (exec_subVY x y s) (byte_sub_toNat _ _)⟩

/-- Settles O7: as 8XY5, with the operands the other way round. -/
theorem reverseSubtractSetsNoBorrow : Obligations.ReverseSubtractSetsNoBorrow :=
  ⟨decodesAs_subnVY, fun x y s => exec_result_flag_spec (exec_subnVY x y s) (byte_sub_toNat _ _)⟩

/-! ### 8XY6 and 8XYE -/

theorem decodesAs_shr : DecodesAs 0xF00F 0x8006 (fun w => .shr (fieldX w)) :=
  decodesAs_of_family8 (by decide) fun w (hN : fieldN w = 6) => by simp [decodeFamily8, hN]

theorem decodesAs_shl : DecodesAs 0xF00F 0x800E (fun w => .shl (fieldX w)) :=
  decodesAs_of_family8 (by decide) fun w (hN : fieldN w = 14) => by simp [decodeFamily8, hN]

theorem exec_shr (x : Reg) (s : State) : exec (.shr x) s = .next (halveReg x (s.setFlag (lowBit (s.getV x)))) := rfl

theorem exec_shl (x : Reg) (s : State) : exec (.shl x) s = .next (doubleReg x (s.setFlag (highBit (s.getV x)))) := rfl

theorem halveReg_getV_toNat (x : Reg) (s : State) : ((halveReg x s).getV x).toNat = (s.getV x).toNat / 2 := by
  have hx : (s.getV x).toNat < 256 := (s.getV x).isLt
  rw [halveReg, State.getV_setV_self, trunc8_toNat]
  omega

theorem doubleReg_getV_toNat (x : Reg) (s : State) :
    ((doubleReg x s).getV x).toNat = (s.getV x).toNat * 2 % 256 := by
  rw [doubleReg, State.getV_setV_self, trunc8_toNat]

/-- A flag taken from bit `k` is that binary digit. -/
theorem flagByte_getLsbD_toNat (v : Byte) (k : Nat) : (flagByte (v.getLsbD k)).toNat = v.toNat / 2 ^ k % 2 := by
  have hbit : v.getLsbD k = decide (v.toNat / 2 ^ k % 2 = 1) := Nat.testBit_eq_decide_div_mod_eq
  rcases Nat.mod_two_eq_zero_or_one (v.toNat / 2 ^ k) with h | h <;> simp [hbit, flagByte, h]

theorem flagByte_lowBit_toNat (v : Byte) : (flagByte (lowBit v)).toNat = v.toNat % 2 := by
  rw [lowBit, flagByte_getLsbD_toNat, Nat.pow_zero, Nat.div_one]

theorem flagByte_highBit_toNat (v : Byte) : (flagByte (highBit v)).toNat = v.toNat / 128 := by
  have hv : v.toNat < 256 := v.isLt
  rw [highBit, flagByte_getLsbD_toNat]
  omega

/-- The flag and then the shifted register: the frame of both shifts. -/
theorem onlyRegs_setFlag_setV (s : State) (x : Reg) (c : Bool) (b : Byte) :
    OnlyRegs [x, VF] s ((s.setFlag c).setV x b) :=
  ((OnlyRegs.refl [x, VF] s).setV (by simp) (flagByte c)).setV List.mem_cons_self b

/-- Settles O8: `V[F]` is written first, so for `X = F` the flag, 0 or 1, is what is halved. -/
theorem shiftRightFlagsThenHalves : Obligations.ShiftRightFlagsThenHalves := by
  refine ⟨decodesAs_shr, fun x s => ⟨_, exec_shr x s, onlyRegs_setFlag_setV s x _ _, fun hx => ⟨?_, ?_⟩, ?_⟩⟩
  · rw [halveReg_getV_toNat, State.getV_setFlag_ne s _ hx]
  · rw [halveReg, State.getV_setV_ne _ _ hx.symm, State.getV_setFlag_self, flagByte_lowBit_toNat]
  · rintro rfl
    apply BitVec.eq_of_toNat_eq
    rw [halveReg_getV_toNat, State.getV_setFlag_self, flagByte_lowBit_toNat]
    exact Nat.div_eq_of_lt (Nat.mod_lt _ Nat.two_pos)

/-- Settles O9: `V[F]` is written first, so for `X = F` the flag, 0 or 1, is what is doubled. -/
theorem shiftLeftFlagsThenDoubles : Obligations.ShiftLeftFlagsThenDoubles := by
  refine ⟨decodesAs_shl, fun x s => ⟨_, exec_shl x s, onlyRegs_setFlag_setV s x _ _, fun hx => ⟨?_, ?_⟩, ?_⟩⟩
  · rw [doubleReg_getV_toNat, State.getV_setFlag_ne s _ hx]
  · rw [doubleReg, State.getV_setV_ne _ _ hx.symm, State.getV_setFlag_self, flagByte_highBit_toNat]
  · rintro rfl
    have hF : (s.getV VF).toNat < 256 := (s.getV VF).isLt
    rw [doubleReg_getV_toNat, State.getV_setFlag_self, flagByte_highBit_toNat]
    omega

/-! ### CXNN -/

theorem decodesAs_rnd : DecodesAs 0xF000 0xC000 (fun w => .rnd (fieldX w) (fieldNN w)) :=
  decodesAs_of_family fun w (hF : fieldF w = 0xC) => by simp [decodeWord, hF]

theorem exec_rnd (x : Reg) (nn : Byte) (s : State) :
    exec (.rnd x nn) s = .next (s.nextDraw.setV x (Config.rand8 s.draws &&& nn)) := rfl

/-- Settles O10: the handler's writes are `V[X]` and the draw, and no other handler has a draw among its writes. -/
theorem randomByteUnderMask : Obligations.RandomByteUnderMask := by
  refine ⟨decodesAs_rnd, fun x nn s => ⟨_, exec_rnd x nn s, ?_, fun r hr => ?_, rfl, fun _ => rfl⟩,
    fun _ _ _ => exists_rnd_of_draws_ne⟩
  · exact State.getV_setV_self _ x _
  · exact State.getV_setV_ne _ _ hr

end Sys2Proof.Machine
end

section
/-! PROOFS. Display instructions (40_display.md R121 to R124): what DXYN draws. -/

namespace Sys2Proof.Machine

/-- What DXYN draws in `s`. -/
def drawingOf (s : State) (x y : Reg) (n : Nat) : Drawing :=
  drawSprite (s.getV x) (s.getV y) ((List.range n).map fun k => s.readByte (s.I.toNat + k)) s.gfx

theorem exec_drw {x y : Reg} {n : Nat} {s : State} (h : n = 0 ∨ s.I.toNat + n ≤ 4096) :
    exec (.drw x y n) s = .next (showDrawing s (drawingOf s x y n)) := exec_drw_ok h

/-- The cells of the sprite are those some lit pixel of it falls on. -/
theorem mem_spriteCells_iff_covers {s : State} {x y : Reg} {n k : Nat} :
    k ∈ spriteCells (s.getV x).toNat (s.getV y).toNat ((List.range n).map fun r => s.readByte (s.I.toNat + r)) ↔
      Covers s x y n k := by
  rw [mem_spriteCells]
  constructor
  · rintro ⟨r, c, hr, hc, hb, rfl⟩
    exact ⟨r, c, by simpa using hr, hc, by simpa [spriteBit] using hb, rfl⟩
  · rintro ⟨r, c, hr, hc, hb, rfl⟩
    exact ⟨r, c, by simpa using hr, hc, by simpa [spriteBit] using hb, rfl⟩

theorem Covers.lt {s : State} {x y : Reg} {n k : Nat} (h : Covers s x y n k) : k < 2048 :=
  spriteCells_lt (mem_spriteCells_iff_covers.mpr h)

section
variable {s : State} {x y : Reg} {n : Nat} (hn : n ≤ 15)
include hn

/-- A sprite of at most 15 rows, in the form `drawSprite_spec` asks for. -/
theorem drawingOf_spec :
    (∀ k, cellLit (drawingOf s x y n).gfx k = (cellLit s.gfx k ^^ decide (k ∈ spriteCells (s.getV x).toNat
      (s.getV y).toNat ((List.range n).map fun r => s.readByte (s.I.toNat + r))))) ∧
    (drawingOf s x y n).collision = (spriteCells (s.getV x).toNat (s.getV y).toNat
      ((List.range n).map fun r => s.readByte (s.I.toNat + r))).any fun k => cellLit s.gfx k :=
  drawSprite_spec _ _ s.gfx (by rw [List.length_map, List.length_range]; omega)

theorem cellLit_drawingOf_of_covers {k : Nat} (h : Covers s x y n k) :
    cellLit (drawingOf s x y n).gfx k = !cellLit s.gfx k := by
  rw [(drawingOf_spec hn).1, decide_eq_true (mem_spriteCells_iff_covers.mpr h), Bool.xor_true]

theorem cellLit_drawingOf_of_not {k : Nat} (h : ¬ Covers s x y n k) :
    cellLit (drawingOf s x y n).gfx k = cellLit s.gfx k := by
  rw [(drawingOf_spec hn).1, decide_eq_false (mt mem_spriteCells_iff_covers.mp h), Bool.xor_false]

theorem drawingOf_collision :
    (drawingOf s x y n).collision = true ↔ ∃ k, k < 2048 ∧ Covers s x y n k ∧ cellLit s.gfx k = true := by
  rw [(drawingOf_spec hn).2, List.any_eq_true]
  constructor
  · rintro ⟨k, hk, hlit⟩
    have hcov := mem_spriteCells_iff_covers.mp hk
    exact ⟨k, hcov.lt, hcov, hlit⟩
  · rintro ⟨k, _, hcov, hlit⟩
    exact ⟨k, mem_spriteCells_iff_covers.mpr hcov, hlit⟩

end

theorem showDrawing_getV_VF (s : State) (d : Drawing) : (showDrawing s d).getV VF = flagByte d.collision :=
  (s.setGfx d.gfx).getV_setFlag_self d.collision

theorem flagByte_eq_one {c : Bool} : flagByte c = 1 ↔ c = true := by cases c <;> decide

theorem decodesAs_drw : DecodesAs 0xF000 0xD000 (fun w => .drw (fieldX w) (fieldY w) (fieldN w).toNat) :=
  decodesAs_of_family fun w (hF : fieldF w = 0xD) => by simp [decodeWord, hF]

/-- A handler that takes a fault raises it. -/
theorem Raises.of_takeFault {i : Instr} {s : State} {r : Raise} (h : exec i s = .next (takeFault r s.instrAddr s)) :
    Raises i s r.cause.code r.info := ⟨_, h, rfl⟩

/-- Settles O12: the covered cells are the cells of the sprite, and no sprite of at most 15 rows names a cell twice. -/
theorem drawInvertsCoveredCells : Obligations.DrawInvertsCoveredCells := by
  refine ⟨decodesAs_drw, fun x y n s hn => ⟨fun hm => ⟨_, exec_drw hm, fun k _ => ⟨?_, ?_⟩, fun hc => ?_, fun hc => ?_,
    rfl, fun r hr => ?_, rfl, fun _ => rfl⟩, fun h₀ hm => .of_takeFault (exec_drw_error h₀ hm)⟩⟩
  · exact cellLit_drawingOf_of_covers hn
  · exact cellLit_drawingOf_of_not hn
  · rw [showDrawing_getV_VF, (drawingOf_collision hn).mpr hc]
    rfl
  · rw [showDrawing_getV_VF, Bool.eq_false_iff.mpr (mt (drawingOf_collision hn).mp hc)]
    rfl
  · exact (s.setGfx _).getV_setFlag_ne _ hr

/-- A drawing moves no sprite whose coordinates it leaves. -/
theorem covers_showDrawing {s : State} {d : Drawing} {x y : Reg} (hx : (showDrawing s d).getV x = s.getV x)
    (hy : (showDrawing s d).getV y = s.getV y) (n k : Nat) : Covers (showDrawing s d) x y n k ↔ Covers s x y n k := by
  unfold Covers
  rw [hx, hy]
  rfl

/-- Settles O13: the second drawing covers the same cells as the first, so it inverts each of them back, and it finds
lit those that were dark. -/
theorem drawTwiceRestoresScreen : Obligations.DrawTwiceRestoresScreen := by
  intro x y n s hn hm
  refine ⟨_, exec_drw hm, fun hx hy => ⟨_, exec_drw (s := showDrawing s (drawingOf s x y n)) hm, ?_, ?_⟩⟩
  · refine gfx_ext fun k _ => ?_
    by_cases hc : Covers s x y n k
    · calc cellLit (drawingOf (showDrawing s (drawingOf s x y n)) x y n).gfx k
        _ = !cellLit (drawingOf s x y n).gfx k :=
          cellLit_drawingOf_of_covers hn ((covers_showDrawing hx hy n k).mpr hc)
        _ = cellLit s.gfx k := by rw [cellLit_drawingOf_of_covers hn hc, Bool.not_not]
    · calc cellLit (drawingOf (showDrawing s (drawingOf s x y n)) x y n).gfx k
        _ = cellLit (drawingOf s x y n).gfx k :=
          cellLit_drawingOf_of_not hn (mt (covers_showDrawing hx hy n k).mp hc)
        _ = cellLit s.gfx k := cellLit_drawingOf_of_not hn hc
  · rw [showDrawing_getV_VF, flagByte_eq_one, drawingOf_collision hn]
    refine exists_congr fun k => and_congr_right fun _ => ?_
    rw [covers_showDrawing hx hy]
    refine and_congr_right fun hc => ?_
    rw [showDrawing_gfx, cellLit_drawingOf_of_covers hn hc, Bool.not_eq_true']

end Sys2Proof.Machine
end

section
/-! PROOFS. Control transfer (41_flow.md): the indexed jump, the skips that compare registers, CALL and RET. -/

namespace Sys2Proof.Machine

/-! ### BNNN -/

theorem decodesAs_jpV0 : DecodesAs 0xF000 0xB000 (fun w => .jpV0 (fieldNNN w)) :=
  decodesAs_of_family fun w (hF : fieldF w = 0xB) => by simp [decodeWord, hF]

theorem exec_jpV0 (nnn : Addr12) (s : State) :
    exec (.jpV0 nnn) s = .next (s.setPc (trunc16 ((s.getV 0).toNat + nnn.toNat))) := rfl

/-- A byte and a 12-bit address add up to at most 0x10FE (R147), so truncation to 16 bits keeps the sum. -/
theorem trunc16_byte_add_addr_toNat (b : Byte) (nnn : Addr12) :
    (trunc16 (b.toNat + nnn.toNat)).toNat = b.toNat + nnn.toNat := by
  have hb : b.toNat < 256 := b.isLt
  have hn : nnn.toNat < 4096 := nnn.isLt
  rw [trunc16_toNat, Nat.mod_eq_of_lt (by omega)]

/-- Settles O15: the handler's one write is `pc`, to the sum, which fits in 16 bits. -/
theorem jumpOffsetAddsV0 : Obligations.JumpOffsetAddsV0 :=
  ⟨decodesAs_jpV0, fun nnn s =>
    ⟨_, exec_jpV0 nnn s, trunc16_byte_add_addr_toNat (s.getV 0) nnn, onlyPc_setPc s _⟩⟩

/-! ### 5XYn and 9XYn -/

theorem decodesAs_seVY : DecodesAs 0xF000 0x5000 (fun w => .seVY (fieldX w) (fieldY w)) :=
  decodesAs_of_family fun w (hF : fieldF w = 5) => by simp [decodeWord, hF]

theorem decodesAs_sneVY : DecodesAs 0xF000 0x9000 (fun w => .sneVY (fieldX w) (fieldY w)) :=
  decodesAs_of_family fun w (hF : fieldF w = 9) => by simp [decodeWord, hF]

theorem exec_seVY (x y : Reg) (s : State) : exec (.seVY x y) s = .next (skipIf (s.getV x == s.getV y) s) := rfl

theorem exec_sneVY (x y : Reg) (s : State) : exec (.sneVY x y) s = .next (skipIf (s.getV x != s.getV y) s) := rfl

/-- Settles O17: both handlers are a skip, on opposite outcomes of one comparison. -/
theorem skipRegisterComparesRegisters : Obligations.SkipRegisterComparesRegisters := by
  refine ⟨decodesAs_seVY, decodesAs_sneVY, fun x y s => ⟨?_, ?_⟩⟩
  · exact exec_skip_spec (exec_seVY x y s) beq_iff_eq.mpr beq_eq_false_iff_ne.mpr
  · exact exec_skip_spec (exec_sneVY x y s) bne_iff_ne.mpr bne_eq_false_iff_eq.mpr

/-! ### 2NNN and 00EE -/

theorem decodesAs_call : DecodesAs 0xF000 0x2000 (fun w => .call (fieldNNN w)) :=
  decodesAs_of_family fun w (hF : fieldF w = 2) => by simp [decodeWord, hF]

/-- The words of row 00EE: `op[11:8]` is not examined (30_encoding.md R96, R99). -/
theorem decodesAs_ret : DecodesAs 0xF0FF 0x00EE (fun _ => .ret) := by
  intro w hw
  have hF : fieldF w = 0 := fieldF_eq_of_masked hw (by decide)
  have hNN : fieldNN w = 0xEE := fieldNN_eq_of_masked hw (by decide)
  rw [decodeWord_family0 hF]
  simp [decodeFamily0, hNN]

/-- Settles O18: below the stack's depth the handler pushes `pc` and jumps; at the depth the push raises. -/
theorem callPushesReturnAddress : Obligations.CallPushesReturnAddress := by
  refine ⟨decodesAs_call, fun nnn s => ⟨fun h => ⟨_, exec_call_ok nnn h, ?_, fun j hj hne => ?_, rfl, ?_, rfl,
    fun _ => rfl⟩, fun h => .of_takeFault (exec_call_error nnn (by omega))⟩⟩
  · exact Vector.getElem_set_self h
  · exact Vector.getElem_set_ne h hj (Ne.symm hne)
  · exact immAddr_toNat nnn

/-- Settles O19: with a live entry the handler pops it; with none the pop raises. -/
theorem returnPopsAddress : Obligations.ReturnPopsAddress :=
  ⟨decodesAs_ret, fun _ => ⟨fun h => ⟨_, exec_ret_ok h.ne', rfl, rfl, rfl, fun _ => rfl⟩,
    fun h => .of_takeFault (exec_ret_error h)⟩⟩

/-- Settles O20: the CALL leaves a live entry, the `pc` it pushed, and the RET pops that one. -/
theorem callThenReturnRoundTrip : Obligations.CallThenReturnRoundTrip := by
  intro nnn p s h
  refine ⟨_, _, exec_call_ok nnn h, exec_ret_ok (Nat.succ_ne_zero _), ?_, rfl, ?_, fun j hj hne => ?_, ?_⟩
  · exact Vector.getElem_set_self h
  · exact Vector.getElem_set_self h
  · exact Vector.getElem_set_ne h hj (Ne.symm hne)
  · have hpop : (s.stack.set s.sp.val s.pc)[s.sp.val] = s.pc := Vector.getElem_set_self h
    simp [hpop]

end Sys2Proof.Machine
end

section
/-! PROOFS. Index register and memory (43_index_memory.md): FX1E, the decimal digits and the register blocks. -/

namespace Sys2Proof.Machine

/-! ### FX1E -/

theorem decodesAs_addIVX : DecodesAs 0xF0FF 0xF01E (fun w => .addIVX (fieldX w)) :=
  decodesAs_of_familyF (by decide) fun w (hNN : fieldNN w = 0x1E) => by simp [decodeFamilyF, hNN]

theorem exec_addIVX (x : Reg) (s : State) :
    exec (.addIVX x) s = .next (s.setI (trunc16 (s.I.toNat + (s.getV x).toNat))) := rfl

/-- Settles O22: the handler's one write is `I`, to the truncated sum. -/
theorem addIndexWrapsWithoutFlag : Obligations.AddIndexWrapsWithoutFlag :=
  ⟨decodesAs_addIVX, fun x s => ⟨_, exec_addIVX x s, trunc16_toNat _, onlyIndex_setI s _⟩⟩

/-! ### FX33 -/

theorem decodesAs_ldBVX : DecodesAs 0xF0FF 0xF033 (fun w => .ldBVX (fieldX w)) :=
  decodesAs_of_familyF (by decide) fun w (hNN : fieldNN w = 0x33) => by simp [decodeFamilyF, hNN]

/-- A decimal digit of a byte is a byte. -/
theorem trunc8_toNat_of_lt {n : Nat} (h : n < 10) : (trunc8 n).toNat = n := by
  rw [trunc8_toNat, Nat.mod_eq_of_lt (by omega)]

/-- Settles O24: inside memory the handler is the verbatim write of the three digits, which canonical memory reads back;
otherwise the write raises. -/
theorem bcdStoresDecimalDigits : Obligations.BcdStoresDecimalDigits := by
  refine ⟨decodesAs_ldBVX, fun x s hwf => ?_⟩
  have hV : (s.getV x).toNat < 256 := (s.getV x).isLt
  have hread (k : Nat) (hk : k < 3) : (s.writeAll s.I.toNat (bcdDigits (s.getV x))).readByte (s.I.toNat + k) =
      (bcdDigits (s.getV x))[k] := s.readByte_writeAll (Memory.wf_iff.mp hwf).1 _ hk
  refine ⟨fun hm => ⟨_, exec_ldBVX_ok (by omega), ?_, ?_, ?_, s.writeAll_frame _ _,
    fun _ hb => s.readByte_writeAll_of_not hb⟩, fun hm => .of_takeFault (exec_ldBVX_error (by omega))⟩
  · exact (congrArg BitVec.toNat (hread 0 (by decide))).trans (trunc8_toNat_of_lt (by omega))
  · exact (congrArg BitVec.toNat (hread 1 (by decide))).trans (trunc8_toNat_of_lt (by omega))
  · exact (congrArg BitVec.toNat (hread 2 (by decide))).trans (trunc8_toNat_of_lt (by omega))

/-! ### FX55 and FX65 -/

theorem decodesAs_storeRegs : DecodesAs 0xF0FF 0xF055 (fun w => .storeRegs (fieldX w)) :=
  decodesAs_of_familyF (by decide) fun w (hNN : fieldNN w = 0x55) => by simp [decodeFamilyF, hNN]

theorem decodesAs_loadRegs : DecodesAs 0xF0FF 0xF065 (fun w => .loadRegs (fieldX w)) :=
  decodesAs_of_familyF (by decide) fun w (hNN : fieldNN w = 0x65) => by simp [decodeFamilyF, hNN]

/-- `I` is kept without the parameter (43_index_memory.md R216). -/
theorem advanceIndex_I_of_false {s : State} (h : s.params.indexIncrementOnBlock = false) (x : Reg) :
    (advanceIndex s x).I = s.I := by
  rw [advanceIndex_I, h, if_neg Bool.false_ne_true]

/-- `I` is advanced by X + 1 under the parameter (R216). -/
theorem advanceIndex_I_of_true {s : State} (h : s.params.indexIncrementOnBlock = true) (x : Reg) :
    (advanceIndex s x).I.toNat = (s.I.toNat + x.val + 1) % 65536 := by
  rw [advanceIndex_I, h, if_pos rfl, trunc16_toNat]

/-- Settles O25: inside memory the handler is the verbatim write of the block and then the advance of `I`; otherwise the
write raises. -/
theorem storeBlockWritesRegisters : Obligations.StoreBlockWritesRegisters := by
  refine ⟨decodesAs_storeRegs, fun x s hwf => ⟨fun hm => ⟨_, exec_storeRegs_ok (by omega), fun k hk => ?_, fun hp => ?_,
    fun hp => ?_, ?_, fun b hb => ?_⟩, fun hm => .of_takeFault (exec_storeRegs_error (by omega))⟩⟩
  · have hk' : k.val < (regBlock s x).length := by
      rw [regBlock_length]
      exact Nat.lt_succ_of_le hk
    rw [advanceIndex_readByte, s.readByte_writeAll (Memory.wf_iff.mp hwf).1 _ hk', regBlock_getElem]
  · rw [advanceIndex_I_of_false (by rwa [State.writeAll_params]), State.writeAll_I]
  · rw [advanceIndex_I_of_true (by rwa [State.writeAll_params]), State.writeAll_I]
  · rw [advanceIndex_eq, State.writeAll_frame]
  · rw [advanceIndex_readByte, s.readByte_writeAll_of_not (by rwa [regBlock_length])]

/-- Settles O26: inside memory the handler loads the block read at `I` and then advances `I`; otherwise the read
raises. -/
theorem loadBlockReadsRegisters : Obligations.LoadBlockReadsRegisters := by
  refine ⟨decodesAs_loadRegs, fun x s => ⟨fun hm => ⟨_, exec_loadRegs_ok (by omega), fun k hk => ?_, fun k hk => ?_,
    fun hp => ?_, fun hp => ?_, ?_, fun a => ?_⟩, fun hm => .of_takeFault (exec_loadRegs_error (by omega))⟩⟩
  · have hk' : k.val < x.val + 1 := Nat.lt_succ_of_le hk
    rw [advanceIndex_getV, getV_setRegBlock s (Nat.zero_le _) (by simpa using hk')]
    simp
  · have hk' : x.val < k.val := hk
    rw [advanceIndex_getV, getV_setRegBlock_of_not s (by rw [List.length_map, List.length_range]; omega)]
  · rw [advanceIndex_I_of_false (by rwa [setRegBlock_params]), setRegBlock_I]
  · rw [advanceIndex_I_of_true (by rwa [setRegBlock_params]), setRegBlock_I]
  · rw [advanceIndex_eq, setRegBlock_frame]
  · rw [advanceIndex_readByte, setRegBlock_readByte]

end Sys2Proof.Machine
end

section
/-! PROOFS. Key and timer instructions (44_keys_timers.md): the key skips and the writes of the timers. -/

namespace Sys2Proof

/-- A word of family E goes to the family E switch (30_encoding.md R94, R97). -/
theorem decodeWord_familyE {w : Word} (hF : fieldF w = 0xE) : decodeWord w = decodeFamilyE w := by
  simp [decodeWord, hF]

end Sys2Proof

namespace Sys2Proof.Machine

/-! ### EX9E and EXA1 -/

/-- A row of the family E switch: the mask 0xF0FF examines the family and the low byte (R97). -/
theorem decodesAs_of_familyE {pat : Word} {f : Word → Instr} (hpat : fieldF pat = 0xE)
    (h : ∀ w, fieldNN w = fieldNN pat → decodeFamilyE w = some (f w)) : DecodesAs 0xF0FF pat f := by
  intro w hw
  have hF : fieldF w = 0xE := (fieldF_eq_of_masked hw (by decide)).trans hpat
  rw [decodeWord_familyE hF]
  exact h w (fieldNN_eq_of_masked hw (by decide))

theorem decodesAs_skp : DecodesAs 0xF0FF 0xE09E (fun w => .skp (fieldX w)) :=
  decodesAs_of_familyE (by decide) fun w (hNN : fieldNN w = 0x9E) => by simp [decodeFamilyE, hNN]

theorem decodesAs_sknp : DecodesAs 0xF0FF 0xE0A1 (fun w => .sknp (fieldX w)) :=
  decodesAs_of_familyE (by decide) fun w (hNN : fieldNN w = 0xA1) => by simp [decodeFamilyE, hNN]

/-- Settles O27: with a key named, both handlers are a skip, on opposite levels of it; with none, the key read
raises. -/
theorem skipOnKeyTestsLevel : Obligations.SkipOnKeyTestsLevel := by
  refine ⟨decodesAs_skp, decodesAs_sknp, fun x s => ⟨fun h => ⟨?_, ?_⟩, fun h => ⟨?_, ?_⟩⟩⟩
  · exact exec_skip_spec (exec_skp_ok h) id id
  · exact exec_skip_spec (exec_sknp_ok h) (Bool.not_eq_true' _).mpr (Bool.not_eq_false' _).mpr
  · exact .of_takeFault (exec_skp_error h)
  · exact .of_takeFault (exec_sknp_error h)

/-! ### FX15 and FX18 -/

theorem decodesAs_ldDTVX : DecodesAs 0xF0FF 0xF015 (fun w => .ldDTVX (fieldX w)) :=
  decodesAs_of_familyF (by decide) fun w (hNN : fieldNN w = 0x15) => by simp [decodeFamilyF, hNN]

theorem decodesAs_ldSTVX : DecodesAs 0xF0FF 0xF018 (fun w => .ldSTVX (fieldX w)) :=
  decodesAs_of_familyF (by decide) fun w (hNN : fieldNN w = 0x18) => by simp [decodeFamilyF, hNN]

theorem exec_ldDTVX (x : Reg) (s : State) : exec (.ldDTVX x) s = .next (s.setDT (s.getV x)) := rfl

theorem exec_ldSTVX (x : Reg) (s : State) : exec (.ldSTVX x) s = .next (s.setST (s.getV x)) := rfl

/-- Settles O30: the handler's one write is `DT`, which the Timer Step then counts down. -/
theorem setDelayTimerLosesOneCount : Obligations.SetDelayTimerLosesOneCount := by
  refine ⟨decodesAs_ldDTVX, fun x s => ⟨_, exec_ldDTVX x s, rfl, rfl, fun _ => rfl⟩, fun x w s hfetch hd => ?_⟩
  exact ⟨_, step_eq_timerStep hfetch hd (exec_ldDTVX x _) rfl, countDown_toNat (s.getV x)⟩

/-- Settles O31: the handler's one write is `ST`, which the Timer Step then counts down and reads for the tone's end. -/
theorem setSoundTimerLosesOneCount : Obligations.SetSoundTimerLosesOneCount := by
  refine ⟨decodesAs_ldSTVX, fun x s => ⟨_, exec_ldSTVX x s, rfl, rfl, fun _ => rfl⟩, fun x w s hfetch hd => ?_⟩
  refine ⟨_, step_eq_timerStep hfetch hd (exec_ldSTVX x _) rfl, countDown_toNat (s.getV x), ?_⟩
  have hone : (s.getV x).toNat = 1 ↔ s.getV x = 1 := BitVec.toNat_inj (y := 1)
  rw [timerStep_events_eq, State.setST_ST, State.setST_events, beginCycle_getV, beginCycle_events, List.nil_append]
  exact if_congr hone.symm rfl rfl

end Sys2Proof.Machine
end

section
/-! PROOFS. Decoding (30_encoding.md R90 to R102): the decoder and the encoder invert each other up to the bits no
handler examines, and the rows of the opcode table are what the decoder selects by. -/

namespace Sys2Proof

/-! ### Encoding and decoding back -/

theorem decodeWord_encode {i : Instr} (h : i.WellFormed) : decodeWord (encode i) = some i := by
  cases i with
  | cls | ret => decide
  | jp | call | ldI | jpV0 => simp [encode, decodeWord]
  | seNN | sneNN | ldNN | addNN | rnd => simp [encode, decodeWord]
  | seVY | sneVY => simp [encode, decodeWord]
  | ldVY | orVY | andVY | xorVY | addVY | subVY | shr | subnVY | shl => simp [encode, decodeWord, decodeFamily8]
  | drw x y n =>
    have hn : n ≤ 15 := of_decide_eq_true h
    simp [encode, decodeWord, Nat.mod_eq_of_lt (show n < 16 by omega)]
  | skp | sknp => simp [encode, decodeWord, decodeFamilyE]
  | ldVXDT | ldVXK | ldDTVX | ldSTVX | addIVX | ldFVX | ldBVX | storeRegs | loadRegs =>
    simp [encode, decodeWord, decodeFamilyF]

/-- The decoder on the two bytes of a word that is an instruction. -/
theorem decode_bytesOfWord {w : Word} {i : Instr} (h : decodeWord w = some i) (rest : List Byte) :
    decode (bytesOfWord w ++ rest) = .ok (i, rest) := by
  simp [bytesOfWord, decode, h]

/-- Settles O48: the two bytes form the canonical word again, and the switches select the instruction by its fields. -/
theorem decodeEncodeRoundTrip : Obligations.DecodeEncodeRoundTrip := fun _ rest h =>
  decode_bytesOfWord (decodeWord_encode h) rest

/-! ### A word written out by the fields that decoding has read -/

section
variable {w : Word} {f n : Nibble} {nn : Byte}

theorem wordNNN_eq_self (hF : (fieldF w).toNat = f.toNat) : wordNNN f (fieldNNN w) = w := by
  apply BitVec.eq_of_toNat_eq
  rw [wordNNN_toNat, ← hF, fieldF_toNat, fieldNNN_toNat]
  omega

theorem wordXNN_eq_self (hF : (fieldF w).toNat = f.toNat) (hNN : (fieldNN w).toNat = nn.toNat) :
    wordXNN f (regField (fieldX w)) nn = w := by
  apply BitVec.eq_of_toNat_eq
  rw [wordXNN_toNat, ← hF, ← hNN, fieldF_toNat, regField_toNat, fieldX_val, fieldNN_toNat]
  omega

theorem word4_eq_self (hF : (fieldF w).toNat = f.toNat) (hN : (fieldN w).toNat = n.toNat) :
    word4 f (regField (fieldX w)) (regField (fieldY w)) n = w := by
  rw [← BitVec.eq_of_toNat_eq hF, ← BitVec.eq_of_toNat_eq hN, word4_fields]

end

/-! ### The bits no handler examines (R99) -/

/-- Family 0: `op[11:8]`. -/
theorem word4_and_F0FF (f x x' y n : Nibble) : word4 f x y n &&& 0xF0FF = word4 f x' y n &&& 0xF0FF := by
  rw [show (0xF0FF : Word) = word4 15 0 15 15 by decide, word4_and, word4_and]
  simp

/-- Families 5 and 9: `op[3:0]`. -/
theorem word4_and_FFF0 (f x y n n' : Nibble) : word4 f x y n &&& 0xFFF0 = word4 f x y n' &&& 0xFFF0 := by
  rw [show (0xFFF0 : Word) = word4 15 15 15 0 by decide, word4_and, word4_and]
  simp

/-- The shifts: `op[7:4]`. -/
theorem word4_and_FF0F (f x y y' n : Nibble) : word4 f x y n &&& 0xFF0F = word4 f x y' n &&& 0xFF0F := by
  rw [show (0xFF0F : Word) = word4 15 15 0 15 by decide, word4_and, word4_and]
  simp

/-! ### Decoding and encoding back -/

/-- The word agrees with the instruction's canonical one on every bit decoding examines. -/
def AgreesWithEncoding (w : Word) (i : Instr) : Prop :=
  i.WellFormed ∧ w &&& examinedBits i = encode i &&& examinedBits i

theorem AgreesWithEncoding.of_eq {w : Word} {i : Instr} (hwf : i.WellFormed) (h : encode i = w) :
    AgreesWithEncoding w i := ⟨hwf, by rw [h]⟩

section
variable {w : Word} {i : Instr}

theorem decodeFamily0_agrees (hF : (fieldF w).toNat = 0) (h : decodeFamily0 w = some i) : AgreesWithEncoding w i := by
  have hfree {nn : Byte} (hNN : (fieldNN w).toNat = nn.toNat) : w &&& 0xF0FF = wordXNN 0 0 nn &&& 0xF0FF := by
    rw [← wordXNN_eq_self (f := 0) hF hNN, wordXNN_eq, wordXNN_eq]
    exact word4_and_F0FF _ _ _ _ _
  unfold decodeFamily0 at h
  split at h
  case h_1 hNN => cases h; exact ⟨rfl, hfree (nn := 0xE0) hNN⟩
  case h_2 hNN => cases h; exact ⟨rfl, hfree (nn := 0xEE) hNN⟩
  case h_3 => cases h

theorem decodeFamily8_agrees (hF : (fieldF w).toNat = 8) (h : decodeFamily8 w = some i) : AgreesWithEncoding w i := by
  have hshift {n : Nibble} (hN : (fieldN w).toNat = n.toNat) :
      w &&& 0xFF0F = word4 8 (regField (fieldX w)) 0 n &&& 0xFF0F := by
    rw [← word4_eq_self (f := 8) hF hN, fieldX_word4]
    exact word4_and_FF0F _ _ _ _ _
  unfold decodeFamily8 at h
  split at h
  case h_7 hN => cases h; exact ⟨rfl, hshift (n := 6) hN⟩
  case h_9 hN => cases h; exact ⟨rfl, hshift (n := 14) hN⟩
  case h_10 => cases h
  all_goals cases h; exact .of_eq rfl (word4_eq_self hF ‹_›)

theorem decodeFamilyE_agrees (hF : (fieldF w).toNat = 14) (h : decodeFamilyE w = some i) : AgreesWithEncoding w i := by
  unfold decodeFamilyE at h
  split at h
  case h_1 hNN | h_2 hNN => cases h; exact .of_eq rfl (wordXNN_eq_self hF hNN)
  case h_3 => cases h

theorem decodeFamilyF_agrees (hF : (fieldF w).toNat = 15) (h : decodeFamilyF w = some i) : AgreesWithEncoding w i := by
  unfold decodeFamilyF at h
  split at h
  case h_10 => cases h
  all_goals cases h; exact .of_eq rfl (wordXNN_eq_self hF ‹_›)

/-- The family digit that no case of the primary table names is F (R94). -/
theorem fieldF_toNat_eq_15 (h : ∀ k, k < 15 → (fieldF w).toNat ≠ k) : (fieldF w).toNat = 15 := by
  have hlt : (fieldF w).toNat < 16 := (fieldF w).isLt
  by_contra hne
  exact h _ (by omega) rfl

theorem decodeWord_agrees (h : decodeWord w = some i) : AgreesWithEncoding w i := by
  unfold decodeWord at h
  split at h
  case h_1 hF => exact decodeFamily0_agrees hF h
  case h_2 hF | h_3 hF | h_11 hF | h_12 hF => cases h; exact .of_eq rfl (wordNNN_eq_self hF)
  case h_4 hF | h_5 hF | h_7 hF | h_8 hF | h_13 hF => cases h; exact .of_eq rfl (wordXNN_eq_self hF rfl)
  case h_6 hF =>
    cases h
    refine ⟨rfl, ?_⟩
    rw [← word4_eq_self (f := 5) hF rfl, fieldX_word4, fieldY_word4]
    exact word4_and_FFF0 _ _ _ _ _
  case h_9 hF => exact decodeFamily8_agrees hF h
  case h_10 hF =>
    cases h
    refine ⟨rfl, ?_⟩
    rw [← word4_eq_self (f := 9) hF rfl, fieldX_word4, fieldY_word4]
    exact word4_and_FFF0 _ _ _ _ _
  case h_14 hF =>
    cases h
    have hN : (fieldN w).toNat ≤ 15 := Nat.le_of_lt_succ (fieldN w).isLt
    refine .of_eq (decide_eq_true hN) ?_
    exact word4_eq_self (n := BitVec.ofNat 4 (fieldN w).toNat) hF (by simp)
  case h_15 hF => exact decodeFamilyE_agrees hF h
  case h_16 => exact decodeFamilyF_agrees (fieldF_toNat_eq_15 fun k hk => by interval_cases k <;> assumption) h

end

/-- Settles O49: by the fields that decoding has read, the word is the canonical one but for the free bits. -/
theorem decodedWordMatchesEncoding : Obligations.DecodedWordMatchesEncoding := fun _ _ => decodeWord_agrees

/-! ### The gaps (R100) -/

section
variable {w : Word}

theorem decodeFamily0_eq_none : decodeFamily0 w = none ↔ fieldNN w ∉ [0xE0, 0xEE] := by
  unfold decodeFamily0
  split <;> simp_all [← BitVec.toNat_inj]

theorem decodeFamily8_eq_none :
    decodeFamily8 w = none ↔ fieldN w ∈ [0x8, 0x9, 0xA, 0xB, 0xC, 0xD, 0xF] := by
  have hlt : (fieldN w).toNat < 16 := (fieldN w).isLt
  unfold decodeFamily8
  split
  case h_10 =>
    simp only [imp_false] at *
    simp [← BitVec.toNat_inj]
    omega
  all_goals simp [← BitVec.toNat_inj, *]

theorem decodeFamilyE_eq_none : decodeFamilyE w = none ↔ fieldNN w ∉ [0x9E, 0xA1] := by
  unfold decodeFamilyE
  split <;> simp_all [← BitVec.toNat_inj]

theorem decodeFamilyF_eq_none :
    decodeFamilyF w = none ↔ fieldNN w ∉ [0x07, 0x0A, 0x15, 0x18, 0x1E, 0x29, 0x33, 0x55, 0x65] := by
  unfold decodeFamilyF
  split <;> simp_all [← BitVec.toNat_inj]

end

/-- Settles O50: the four switches that can answer none, each with its gap. -/
theorem unimplementedWordsAreExactlyTheGaps : Obligations.UnimplementedWordsAreExactlyTheGaps := by
  intro w
  rw [← decodeFamily0_eq_none, ← decodeFamily8_eq_none, ← decodeFamilyE_eq_none, ← decodeFamilyF_eq_none]
  unfold decodeWord
  split
  case h_16 =>
    have hF : (fieldF w).toNat = 15 := fieldF_toNat_eq_15 fun k hk => by interval_cases k <;> assumption
    simp [← BitVec.toNat_inj, hF]
  all_goals simp [← BitVec.toNat_inj, *]

end Sys2Proof
end

section
/-! PROOFS. The opcode table (30_encoding.md R101): each row selects the instructions it stands for, and no word of a
row is of another. -/

namespace Sys2Proof.Laws

open Sys2Proof

/-- The word of every well-formed instruction lies in its row. -/
theorem encode_matches_rowOf (i : Instr) : EncodeRow.Statement i := by
  cases i with
  | cls => exact EncodeRow.cls
  | ret => exact EncodeRow.ret
  | jp nnn => exact EncodeRow.jp nnn
  | call nnn => exact EncodeRow.call nnn
  | seNN x nn => exact EncodeRow.seNN x nn
  | sneNN x nn => exact EncodeRow.sneNN x nn
  | seVY x y => exact EncodeRow.seVY x y
  | ldNN x nn => exact EncodeRow.ldNN x nn
  | addNN x nn => exact EncodeRow.addNN x nn
  | ldVY x y => exact EncodeRow.ldVY x y
  | orVY x y => exact EncodeRow.orVY x y
  | andVY x y => exact EncodeRow.andVY x y
  | xorVY x y => exact EncodeRow.xorVY x y
  | addVY x y => exact EncodeRow.addVY x y
  | subVY x y => exact EncodeRow.subVY x y
  | shr x => exact EncodeRow.shr x
  | subnVY x y => exact EncodeRow.subnVY x y
  | shl x => exact EncodeRow.shl x
  | sneVY x y => exact EncodeRow.sneVY x y
  | ldI nnn => exact EncodeRow.ldI nnn
  | jpV0 nnn => exact EncodeRow.jpV0 nnn
  | rnd x nn => exact EncodeRow.rnd x nn
  | drw x y n => exact EncodeRow.drw x y n
  | skp x => exact EncodeRow.skp x
  | sknp x => exact EncodeRow.sknp x
  | ldVXDT x => exact EncodeRow.ldVXDT x
  | ldVXK x => exact EncodeRow.ldVXK x
  | ldDTVX x => exact EncodeRow.ldDTVX x
  | ldSTVX x => exact EncodeRow.ldSTVX x
  | addIVX x => exact EncodeRow.addIVX x
  | ldFVX x => exact EncodeRow.ldFVX x
  | ldBVX x => exact EncodeRow.ldBVX x
  | storeRegs x => exact EncodeRow.storeRegs x
  | loadRegs x => exact EncodeRow.loadRegs x

end Sys2Proof.Laws

namespace Sys2Proof.Machine

theorem OpcodeRow.matches_iff {r : OpcodeRow} {w : Word} : r.matches w = true ↔ w &&& r.mask = r.pat := beq_iff_eq

/-- Each row of the table selects: every word that matches it decodes to an instruction of that row. -/
theorem opcodeTable_selects : ∀ r ∈ opcodeTable, ∃ f, DecodesAs r.mask r.pat f ∧ ∀ w, rowOf (f w) = r := by
  simp only [opcodeTable, tableLow, tableHigh, List.cons_append, List.nil_append, List.forall_mem_cons]
  exact ⟨⟨_, decodesAs_cls, fun _ => rfl⟩, ⟨_, decodesAs_ret, fun _ => rfl⟩, ⟨_, decodesAs_jp, fun _ => rfl⟩,
    ⟨_, decodesAs_call, fun _ => rfl⟩, ⟨_, decodesAs_seNN, fun _ => rfl⟩, ⟨_, decodesAs_sneNN, fun _ => rfl⟩,
    ⟨_, decodesAs_seVY, fun _ => rfl⟩, ⟨_, decodesAs_ldNN, fun _ => rfl⟩, ⟨_, decodesAs_addNN, fun _ => rfl⟩,
    ⟨_, decodesAs_ldVY, fun _ => rfl⟩, ⟨_, decodesAs_orVY, fun _ => rfl⟩, ⟨_, decodesAs_andVY, fun _ => rfl⟩,
    ⟨_, decodesAs_xorVY, fun _ => rfl⟩, ⟨_, decodesAs_addVY, fun _ => rfl⟩, ⟨_, decodesAs_subVY, fun _ => rfl⟩,
    ⟨_, decodesAs_shr, fun _ => rfl⟩, ⟨_, decodesAs_subnVY, fun _ => rfl⟩, ⟨_, decodesAs_shl, fun _ => rfl⟩,
    ⟨_, decodesAs_sneVY, fun _ => rfl⟩, ⟨_, decodesAs_ldI, fun _ => rfl⟩, ⟨_, decodesAs_jpV0, fun _ => rfl⟩,
    ⟨_, decodesAs_rnd, fun _ => rfl⟩, ⟨_, decodesAs_drw, fun _ => rfl⟩, ⟨_, decodesAs_skp, fun _ => rfl⟩,
    ⟨_, decodesAs_sknp, fun _ => rfl⟩, ⟨_, decodesAs_ldVXDT, fun _ => rfl⟩, ⟨_, decodesAs_ldVXK, fun _ => rfl⟩,
    ⟨_, decodesAs_ldDTVX, fun _ => rfl⟩, ⟨_, decodesAs_ldSTVX, fun _ => rfl⟩, ⟨_, decodesAs_addIVX, fun _ => rfl⟩,
    ⟨_, decodesAs_ldFVX, fun _ => rfl⟩, ⟨_, decodesAs_ldBVX, fun _ => rfl⟩, ⟨_, decodesAs_storeRegs, fun _ => rfl⟩,
    ⟨_, decodesAs_loadRegs, fun _ => rfl⟩, nofun⟩

theorem decodeWord_of_matches {r : OpcodeRow} (hr : r ∈ opcodeTable) {w : Word} (h : r.matches w = true) :
    ∃ i, decodeWord w = some i ∧ rowOf i = r := by
  obtain ⟨f, hf, hrow⟩ := opcodeTable_selects r hr
  exact ⟨f w, hf w (OpcodeRow.matches_iff.mp h), hrow w⟩

theorem rowOf_mem_opcodeTable (i : Instr) : rowOf i ∈ opcodeTable := by
  cases i <;> simp [rowOf, opcodeTable, tableLow, tableHigh]

/-- A row fixes bits that decoding examines. -/
theorem examinedBits_and_mask (i : Instr) : examinedBits i &&& (rowOf i).mask = (rowOf i).mask := by
  cases i with
  | cls | ret => exact BitVec.and_self
  | seVY | sneVY => exact (by decide : (0xFFF0 &&& 0xF000 : Word) = 0xF000)
  | shr | shl => exact (by decide : (0xFF0F &&& 0xF00F : Word) = 0xF00F)
  | jp | call | ldI | jpV0 | seNN | sneNN | ldNN | addNN | rnd | drw =>
    exact (by decide : (0xFFFF &&& 0xF000 : Word) = 0xF000)
  | ldVY | orVY | andVY | xorVY | addVY | subVY | subnVY => exact (by decide : (0xFFFF &&& 0xF00F : Word) = 0xF00F)
  | skp | sknp | ldVXDT | ldVXK | ldDTVX | ldSTVX | addIVX | ldFVX | ldBVX | storeRegs | loadRegs =>
    exact (by decide : (0xFFFF &&& 0xF0FF : Word) = 0xF0FF)

/-- A word that decodes matches its instruction's row: it agrees with the canonical word on the bits the row fixes. -/
theorem rowOf_matches_of_decodeWord {w : Word} {i : Instr} (h : decodeWord w = some i) :
    (rowOf i).matches w = true := by
  obtain ⟨hwf, heq⟩ := decodeWord_agrees h
  have henc : encode i &&& (rowOf i).mask = (rowOf i).pat :=
    OpcodeRow.matches_iff.mp (Laws.encode_matches_rowOf i hwf)
  rw [OpcodeRow.matches_iff]
  calc w &&& (rowOf i).mask
    _ = (w &&& examinedBits i) &&& (rowOf i).mask := by rw [BitVec.and_assoc, examinedBits_and_mask]
    _ = (encode i &&& examinedBits i) &&& (rowOf i).mask := by rw [heq]
    _ = (rowOf i).pat := by rw [BitVec.and_assoc, examinedBits_and_mask, henc]

/-- Settles O51: a matching row determines the decoded instruction's row, and a decoded word matches its row. -/
theorem everyWordMatchesOneRowOrNone : Obligations.EveryWordMatchesOneRowOrNone := by
  intro w
  refine ⟨fun i hi => ⟨rowOf_mem_opcodeTable i, fun r hr => ⟨fun hm => ?_, ?_⟩⟩, fun hn r hr => ?_, fun hnone => ?_⟩
  · obtain ⟨j, hj, hrow⟩ := decodeWord_of_matches hr hm
    cases hi.symm.trans hj
    exact hrow.symm
  · rintro rfl
    exact rowOf_matches_of_decodeWord hi
  · refine Bool.eq_false_iff.mpr fun hm => ?_
    obtain ⟨j, hj, _⟩ := decodeWord_of_matches hr hm
    cases hn.symm.trans hj
  · refine Option.eq_none_iff_forall_ne_some.mpr fun i hi => ?_
    exact Bool.eq_false_iff.mp (hnone _ (rowOf_mem_opcodeTable i)) (rowOf_matches_of_decodeWord hi)

/-- Settles O52: the words are closed, so the decoder evaluates on each. -/
theorem sampleWordsDecode : Obligations.SampleWordsDecode := by
  unfold Obligations.SampleWordsDecode
  decide

end Sys2Proof.Machine
end
